-- ==== Sys2Proof/Word.lean ====
section
/-!
DEFINITION. The widths of the machine (00_scope.md R7): the 64-bit values of `A`, `X`, the scratch
slots, `pc` and the instruction word, and the fields of an instruction.
-/

namespace Sys2Proof

/-- One byte of the packet space (20_memory.md R52). -/
abbrev Byte := BitVec 8

/-- An unsigned 64-bit value (`XLEN`, `INSN_W` and `PC_W` of R7; every value is unsigned, R9). -/
abbrev Word := BitVec 64

/-- The `code` field of an instruction (`CODE_W`, R7). -/
abbrev Code := BitVec 16

/-- A `jt` or `jf` field: an unsigned count of instructions (R7, 30_encoding.md R84). -/
abbrev Count := BitVec 8

/-- The `k` field as encoded (`K_W`, R7). -/
abbrev Imm := BitVec 32

end Sys2Proof
end

