-- ==== Sys2Proof/Syntax.lean ====
section
/-!
DEFINITION. The instructions: one constructor per row of spec/opcode_table.json, in the table's
order (30_encoding.md R93). A constructor carries the fields its instruction reads; the fields it
ignores are no part of it (R86, log entry 21).
-/

namespace Sys2Proof

/-- The 45 instructions (30_encoding.md R93). `jt` and `jf` are instruction counts, `k` is the 32-bit
field as encoded. -/
inductive Instr where
  /-- `LD W IMM`: `A <- k` (40_load.md R119). -/
  | ldWImm (k : Imm)
  /-- `LD W ABS`: `A <-` the 4 packet bytes at `k` (40_load.md R112). -/
  | ldWAbs (k : Imm)
  /-- `LD H ABS`: `A <-` the 2 packet bytes at `k` (40_load.md R113). -/
  | ldHAbs (k : Imm)
  /-- `LD B ABS`: `A <-` the packet byte at `k` (40_load.md R114). -/
  | ldBAbs (k : Imm)
  /-- `LD W IND`: `A <-` the 4 packet bytes at `X + k` (40_load.md R115). -/
  | ldWInd (k : Imm)
  /-- `LD H IND`: `A <-` the 2 packet bytes at `X + k` (40_load.md R116). -/
  | ldHInd (k : Imm)
  /-- `LD B IND`: `A <-` the packet byte at `X + k` (40_load.md R117). -/
  | ldBInd (k : Imm)
  /-- `LD W MEM`: `A <- M[k]` (40_load.md R120). -/
  | ldWMem (k : Imm)
  /-- `LD W LEN`: `A <- WIRELEN` (40_load.md R118). -/
  | ldWLen
  /-- `LDX W IMM`: `X <- k` (40_load.md R121). -/
  | ldxWImm (k : Imm)
  /-- `LDX W MEM`: `X <- M[k]` (40_load.md R122). -/
  | ldxWMem (k : Imm)
  /-- `LDX W LEN`: `X <- WIRELEN` (40_load.md R123). -/
  | ldxWLen
  /-- `LDX B MSH`: `X <-` 4 times the low nibble of packet byte `k` (40_load.md R124). -/
  | ldxBMsh (k : Imm)
  /-- `ST`: `M[k] <- A` (41_store.md R141). -/
  | st (k : Imm)
  /-- `STX`: `M[k] <- X` (41_store.md R142). -/
  | stx (k : Imm)
  /-- `JMP JA`: `pc <- k` (42_jump.md R153). -/
  | jmpJa (k : Imm)
  /-- `JMP JEQ K`: branch on `A = k` (42_jump.md R154). -/
  | jmpJeqK (jt jf : Count) (k : Imm)
  /-- `JMP JGT K`: branch on `A > k` (42_jump.md R155). -/
  | jmpJgtK (jt jf : Count) (k : Imm)
  /-- `JMP JGE K`: branch on `A >= k` (42_jump.md R156). -/
  | jmpJgeK (jt jf : Count) (k : Imm)
  /-- `JMP JSET K`: branch on `A & k` not 0 (42_jump.md R157). -/
  | jmpJsetK (jt jf : Count) (k : Imm)
  /-- `JMP JEQ X`: branch on `A = X` (42_jump.md R158). -/
  | jmpJeqX (jt jf : Count)
  /-- `JMP JGT X`: branch on `A > X` (42_jump.md R159). -/
  | jmpJgtX (jt jf : Count)
  /-- `JMP JGE X`: branch on `A >= X` (42_jump.md R160). -/
  | jmpJgeX (jt jf : Count)
  /-- `JMP JSET X`: branch on `A & X` not 0 (42_jump.md R161). -/
  | jmpJsetX (jt jf : Count)
  /-- `ALU ADD K`: `A <- A + k` (43_alu.md R175). -/
  | aluAddK (k : Imm)
  /-- `ALU SUB K`: `A <- A - k` (43_alu.md R176). -/
  | aluSubK (k : Imm)
  /-- `ALU MUL K`: `A <- A * k` (43_alu.md R177). -/
  | aluMulK (k : Imm)
  /-- `ALU DIV K`: `A <- A div k` (43_alu.md R178). -/
  | aluDivK (k : Imm)
  /-- `ALU OR K`: `A <- A or k` (43_alu.md R179). -/
  | aluOrK (k : Imm)
  /-- `ALU AND K`: `A <- A and k` (43_alu.md R180). -/
  | aluAndK (k : Imm)
  /-- `ALU LSH K`: `A <- A << k` (43_alu.md R181). -/
  | aluLshK (k : Imm)
  /-- `ALU RSH K`: `A <- A >> k` (43_alu.md R182). -/
  | aluRshK (k : Imm)
  /-- `ALU ADD X`: `A <- A + X` (43_alu.md R183). -/
  | aluAddX
  /-- `ALU SUB X`: `A <- A - X` (43_alu.md R184). -/
  | aluSubX
  /-- `ALU MUL X`: `A <- A * X` (43_alu.md R185). -/
  | aluMulX
  /-- `ALU DIV X`: `A <- A div X` (43_alu.md R186). -/
  | aluDivX
  /-- `ALU OR X`: `A <- A or X` (43_alu.md R187). -/
  | aluOrX
  /-- `ALU AND X`: `A <- A and X` (43_alu.md R188). -/
  | aluAndX
  /-- `ALU LSH X`: `A <- A << X` (43_alu.md R189). -/
  | aluLshX
  /-- `ALU RSH X`: `A <- A >> X` (43_alu.md R190). -/
  | aluRshX
  /-- `ALU NEG`: `A <- -A` (43_alu.md R191). -/
  | aluNeg
  /-- `MISC TAX`: `X <- A` (44_misc.md R201). -/
  | miscTax
  /-- `MISC TXA`: `A <- X` (44_misc.md R202). -/
  | miscTxa
  /-- `RET K`: end the run with verdict `k` (45_return.md R211). -/
  | retK (k : Imm)
  /-- `RET A`: end the run with verdict `A` (45_return.md R212). -/
  | retA
  deriving DecidableEq, Repr

/-- The mnemonic of an instruction, as the spec spells it (30_encoding.md R100, R103). -/
def Instr.mnemonic : Instr → String
  | .ldWImm _ => "LD W IMM"
  | .ldWAbs _ => "LD W ABS"
  | .ldHAbs _ => "LD H ABS"
  | .ldBAbs _ => "LD B ABS"
  | .ldWInd _ => "LD W IND"
  | .ldHInd _ => "LD H IND"
  | .ldBInd _ => "LD B IND"
  | .ldWMem _ => "LD W MEM"
  | .ldWLen => "LD W LEN"
  | .ldxWImm _ => "LDX W IMM"
  | .ldxWMem _ => "LDX W MEM"
  | .ldxWLen => "LDX W LEN"
  | .ldxBMsh _ => "LDX B MSH"
  | .st _ => "ST"
  | .stx _ => "STX"
  | .jmpJa _ => "JMP JA"
  | .jmpJeqK _ _ _ => "JMP JEQ K"
  | .jmpJgtK _ _ _ => "JMP JGT K"
  | .jmpJgeK _ _ _ => "JMP JGE K"
  | .jmpJsetK _ _ _ => "JMP JSET K"
  | .jmpJeqX _ _ => "JMP JEQ X"
  | .jmpJgtX _ _ => "JMP JGT X"
  | .jmpJgeX _ _ => "JMP JGE X"
  | .jmpJsetX _ _ => "JMP JSET X"
  | .aluAddK _ => "ALU ADD K"
  | .aluSubK _ => "ALU SUB K"
  | .aluMulK _ => "ALU MUL K"
  | .aluDivK _ => "ALU DIV K"
  | .aluOrK _ => "ALU OR K"
  | .aluAndK _ => "ALU AND K"
  | .aluLshK _ => "ALU LSH K"
  | .aluRshK _ => "ALU RSH K"
  | .aluAddX => "ALU ADD X"
  | .aluSubX => "ALU SUB X"
  | .aluMulX => "ALU MUL X"
  | .aluDivX => "ALU DIV X"
  | .aluOrX => "ALU OR X"
  | .aluAndX => "ALU AND X"
  | .aluLshX => "ALU LSH X"
  | .aluRshX => "ALU RSH X"
  | .aluNeg => "ALU NEG"
  | .miscTax => "MISC TAX"
  | .miscTxa => "MISC TXA"
  | .retK _ => "RET K"
  | .retA => "RET A"

end Sys2Proof
end

