-- ==== Sys2Proof/Decode.lean ====
section
/-!
DEFINITION. The instruction word and its fields, the decoder (30_encoding.md R81 to R96) and, after
it, the encoder (R102). The decoder is total on the 64-bit words and rejects by name.
-/

namespace Sys2Proof

/-! ## The word and its fields -/

/-- `w[63:48]` (30_encoding.md R81). -/
def codeField (w : Word) : Code := w.extractLsb' 48 16

/-- `w[47:40]` (30_encoding.md R81). -/
def jtField (w : Word) : Count := w.extractLsb' 40 8

/-- `w[39:32]` (30_encoding.md R81). -/
def jfField (w : Word) : Count := w.extractLsb' 32 8

/-- `w[31:0]` (30_encoding.md R81). -/
def kField (w : Word) : Imm := w.extractLsb' 0 32

/-- The word with the given fields, `code` in the most significant place (30_encoding.md R81, R102). -/
def makeWord (code : Code) (jt jf : Count) (k : Imm) : Word := code ++ jt ++ jf ++ k

/-! ## The decoder -/

/-- Why a word is no instruction: its `code` is none of the 45 legal ones (30_encoding.md R96). -/
inductive DecodeError where
  | illegalCode (code : Code)
  deriving DecidableEq, Repr

/-- One row of the opcode map: the value of `code` and the instruction made of the other fields. -/
structure OpcodeRow where
  code : Code
  build : Count → Count → Imm → Instr

/-- The 13 loads of 30_encoding.md R93, numbers 1 to 13. -/
def loadRows : List OpcodeRow := [
  ⟨0x0000#16, fun _ _ k => .ldWImm k⟩,
  ⟨0x0020#16, fun _ _ k => .ldWAbs k⟩,
  ⟨0x0028#16, fun _ _ k => .ldHAbs k⟩,
  ⟨0x0030#16, fun _ _ k => .ldBAbs k⟩,
  ⟨0x0040#16, fun _ _ k => .ldWInd k⟩,
  ⟨0x0048#16, fun _ _ k => .ldHInd k⟩,
  ⟨0x0050#16, fun _ _ k => .ldBInd k⟩,
  ⟨0x0060#16, fun _ _ k => .ldWMem k⟩,
  ⟨0x0080#16, fun _ _ _ => .ldWLen⟩,
  ⟨0x0001#16, fun _ _ k => .ldxWImm k⟩,
  ⟨0x0061#16, fun _ _ k => .ldxWMem k⟩,
  ⟨0x0081#16, fun _ _ _ => .ldxWLen⟩,
  ⟨0x00B1#16, fun _ _ k => .ldxBMsh k⟩]

/-- The stores of 30_encoding.md R93, numbers 14 and 15. -/
def storeRows : List OpcodeRow := [
  ⟨0x0002#16, fun _ _ k => .st k⟩,
  ⟨0x0003#16, fun _ _ k => .stx k⟩]

/-- The jumps of 30_encoding.md R93, numbers 16 to 24. -/
def jumpRows : List OpcodeRow := [
  ⟨0x0005#16, fun _ _ k => .jmpJa k⟩,
  ⟨0x0015#16, fun jt jf k => .jmpJeqK jt jf k⟩,
  ⟨0x0025#16, fun jt jf k => .jmpJgtK jt jf k⟩,
  ⟨0x0035#16, fun jt jf k => .jmpJgeK jt jf k⟩,
  ⟨0x0045#16, fun jt jf k => .jmpJsetK jt jf k⟩,
  ⟨0x001D#16, fun jt jf _ => .jmpJeqX jt jf⟩,
  ⟨0x002D#16, fun jt jf _ => .jmpJgtX jt jf⟩,
  ⟨0x003D#16, fun jt jf _ => .jmpJgeX jt jf⟩,
  ⟨0x004D#16, fun jt jf _ => .jmpJsetX jt jf⟩]

/-- The ALU instructions of 30_encoding.md R93, numbers 25 to 41. -/
def aluRows : List OpcodeRow := [
  ⟨0x0004#16, fun _ _ k => .aluAddK k⟩,
  ⟨0x0014#16, fun _ _ k => .aluSubK k⟩,
  ⟨0x0024#16, fun _ _ k => .aluMulK k⟩,
  ⟨0x0034#16, fun _ _ k => .aluDivK k⟩,
  ⟨0x0044#16, fun _ _ k => .aluOrK k⟩,
  ⟨0x0054#16, fun _ _ k => .aluAndK k⟩,
  ⟨0x0064#16, fun _ _ k => .aluLshK k⟩,
  ⟨0x0074#16, fun _ _ k => .aluRshK k⟩,
  ⟨0x000C#16, fun _ _ _ => .aluAddX⟩,
  ⟨0x001C#16, fun _ _ _ => .aluSubX⟩,
  ⟨0x002C#16, fun _ _ _ => .aluMulX⟩,
  ⟨0x003C#16, fun _ _ _ => .aluDivX⟩,
  ⟨0x004C#16, fun _ _ _ => .aluOrX⟩,
  ⟨0x005C#16, fun _ _ _ => .aluAndX⟩,
  ⟨0x006C#16, fun _ _ _ => .aluLshX⟩,
  ⟨0x007C#16, fun _ _ _ => .aluRshX⟩,
  ⟨0x0084#16, fun _ _ _ => .aluNeg⟩]

/-- The register transfers of 30_encoding.md R93, numbers 42 and 43. -/
def miscRows : List OpcodeRow := [
  ⟨0x0007#16, fun _ _ _ => .miscTax⟩,
  ⟨0x0087#16, fun _ _ _ => .miscTxa⟩]

/-- The returns of 30_encoding.md R93, numbers 44 and 45. -/
def returnRows : List OpcodeRow := [
  ⟨0x0006#16, fun _ _ k => .retK k⟩,
  ⟨0x0016#16, fun _ _ _ => .retA⟩]

/-- The opcode map, 45 rows in the order of 30_encoding.md R93. -/
def opcodeTable : List OpcodeRow :=
  loadRows ++ storeRows ++ jumpRows ++ aluRows ++ miscRows ++ returnRows

/-- The row that a `code` selects: an exact match of all 16 bits (30_encoding.md R94). -/
def opcodeRow (code : Code) : Option OpcodeRow :=
  opcodeTable.find? fun row => row.code == code

/-- Decoding of a `code` and its operand fields (30_encoding.md R94, R96). -/
def decodeFields (code : Code) (jt jf : Count) (k : Imm) : Except DecodeError Instr :=
  match opcodeRow code with
  | some row => .ok (row.build jt jf k)
  | none => .error (.illegalCode code)

/-- The decoder: an instruction word gives an instruction or is rejected by name (R94, R96). -/
def decode (w : Word) : Except DecodeError Instr :=
  decodeFields (codeField w) (jtField w) (jfField w) (kField w)

/-- The decoder by sub-fields of `code` (30_encoding.md R95), which the spec calls equivalent to the
exact match of R94; the step uses `decode`. -/
def decodeSubfields (code : Code) (jt jf : Count) (k : Imm) : Except DecodeError Instr :=
  let illegal : Except DecodeError Instr := .error (.illegalCode code)
  if code &&& 0xFF00 ≠ 0 then illegal
  else if code &&& 0x07 = 0x00 then loadA illegal
  else if code &&& 0x07 = 0x01 then loadX illegal
  else if code &&& 0x07 = 0x02 then (if code &&& 0xF8 = 0 then .ok (.st k) else illegal)
  else if code &&& 0x07 = 0x03 then (if code &&& 0xF8 = 0 then .ok (.stx k) else illegal)
  else if code &&& 0x07 = 0x04 then alu illegal
  else if code &&& 0x07 = 0x05 then jump illegal
  else if code &&& 0x07 = 0x06 then
    (if code &&& 0xF8 = 0x00 then .ok (.retK k)
     else if code &&& 0xF8 = 0x10 then .ok .retA else illegal)
  else
    (if code &&& 0xF8 = 0x00 then .ok .miscTax
     else if code &&& 0xF8 = 0x80 then .ok .miscTxa else illegal)
where
  /-- Class `LD` (size and mode together, `code & 0xF8`). -/
  loadA (illegal : Except DecodeError Instr) : Except DecodeError Instr :=
    if code &&& 0xF8 = 0x00 then .ok (.ldWImm k)
    else if code &&& 0xF8 = 0x20 then .ok (.ldWAbs k)
    else if code &&& 0xF8 = 0x28 then .ok (.ldHAbs k)
    else if code &&& 0xF8 = 0x30 then .ok (.ldBAbs k)
    else if code &&& 0xF8 = 0x40 then .ok (.ldWInd k)
    else if code &&& 0xF8 = 0x48 then .ok (.ldHInd k)
    else if code &&& 0xF8 = 0x50 then .ok (.ldBInd k)
    else if code &&& 0xF8 = 0x60 then .ok (.ldWMem k)
    else if code &&& 0xF8 = 0x80 then .ok .ldWLen
    else illegal
  /-- Class `LDX` (size and mode together, `code & 0xF8`). -/
  loadX (illegal : Except DecodeError Instr) : Except DecodeError Instr :=
    if code &&& 0xF8 = 0x00 then .ok (.ldxWImm k)
    else if code &&& 0xF8 = 0x60 then .ok (.ldxWMem k)
    else if code &&& 0xF8 = 0x80 then .ok .ldxWLen
    else if code &&& 0xF8 = 0xB0 then .ok (.ldxBMsh k)
    else illegal
  /-- Class `ALU`: operator `code & 0xF0` (R90), source `code & 0x08` (R91). -/
  alu (illegal : Except DecodeError Instr) : Except DecodeError Instr :=
    let src (onK onX : Instr) : Except DecodeError Instr :=
      if code &&& 0x08 = 0 then .ok onK else .ok onX
    if code &&& 0xF0 = 0x00 then src (.aluAddK k) .aluAddX
    else if code &&& 0xF0 = 0x10 then src (.aluSubK k) .aluSubX
    else if code &&& 0xF0 = 0x20 then src (.aluMulK k) .aluMulX
    else if code &&& 0xF0 = 0x30 then src (.aluDivK k) .aluDivX
    else if code &&& 0xF0 = 0x40 then src (.aluOrK k) .aluOrX
    else if code &&& 0xF0 = 0x50 then src (.aluAndK k) .aluAndX
    else if code &&& 0xF0 = 0x60 then src (.aluLshK k) .aluLshX
    else if code &&& 0xF0 = 0x70 then src (.aluRshK k) .aluRshX
    else if code &&& 0xF0 = 0x80 then (if code &&& 0x08 = 0 then .ok .aluNeg else illegal)
    else illegal
  /-- Class `JMP`: operator `code & 0xF0` (R90), source `code & 0x08` (R91). -/
  jump (illegal : Except DecodeError Instr) : Except DecodeError Instr :=
    let src (onK onX : Instr) : Except DecodeError Instr :=
      if code &&& 0x08 = 0 then .ok onK else .ok onX
    if code &&& 0xF0 = 0x00 then (if code &&& 0x08 = 0 then .ok (.jmpJa k) else illegal)
    else if code &&& 0xF0 = 0x10 then src (.jmpJeqK jt jf k) (.jmpJeqX jt jf)
    else if code &&& 0xF0 = 0x20 then src (.jmpJgtK jt jf k) (.jmpJgtX jt jf)
    else if code &&& 0xF0 = 0x30 then src (.jmpJgeK jt jf k) (.jmpJgeX jt jf)
    else if code &&& 0xF0 = 0x40 then src (.jmpJsetK jt jf k) (.jmpJsetX jt jf)
    else illegal

/-! ## The encoder -/

/-- The `code` of an instruction (30_encoding.md R93). -/
def Instr.code : Instr → Code
  | .ldWImm _ => 0x0000
  | .ldWAbs _ => 0x0020
  | .ldHAbs _ => 0x0028
  | .ldBAbs _ => 0x0030
  | .ldWInd _ => 0x0040
  | .ldHInd _ => 0x0048
  | .ldBInd _ => 0x0050
  | .ldWMem _ => 0x0060
  | .ldWLen => 0x0080
  | .ldxWImm _ => 0x0001
  | .ldxWMem _ => 0x0061
  | .ldxWLen => 0x0081
  | .ldxBMsh _ => 0x00B1
  | .st _ => 0x0002
  | .stx _ => 0x0003
  | .jmpJa _ => 0x0005
  | .jmpJeqK _ _ _ => 0x0015
  | .jmpJgtK _ _ _ => 0x0025
  | .jmpJgeK _ _ _ => 0x0035
  | .jmpJsetK _ _ _ => 0x0045
  | .jmpJeqX _ _ => 0x001D
  | .jmpJgtX _ _ => 0x002D
  | .jmpJgeX _ _ => 0x003D
  | .jmpJsetX _ _ => 0x004D
  | .aluAddK _ => 0x0004
  | .aluSubK _ => 0x0014
  | .aluMulK _ => 0x0024
  | .aluDivK _ => 0x0034
  | .aluOrK _ => 0x0044
  | .aluAndK _ => 0x0054
  | .aluLshK _ => 0x0064
  | .aluRshK _ => 0x0074
  | .aluAddX => 0x000C
  | .aluSubX => 0x001C
  | .aluMulX => 0x002C
  | .aluDivX => 0x003C
  | .aluOrX => 0x004C
  | .aluAndX => 0x005C
  | .aluLshX => 0x006C
  | .aluRshX => 0x007C
  | .aluNeg => 0x0084
  | .miscTax => 0x0007
  | .miscTxa => 0x0087
  | .retK _ => 0x0006
  | .retA => 0x0016

/-- The `jt` field an encoder writes: 0 in an instruction that has none (30_encoding.md R102). -/
def Instr.jt : Instr → Count
  | .jmpJeqK jt _ _ | .jmpJgtK jt _ _ | .jmpJgeK jt _ _ | .jmpJsetK jt _ _ | .jmpJeqX jt _
  | .jmpJgtX jt _ | .jmpJgeX jt _ | .jmpJsetX jt _ => jt
  | .ldWImm _ | .ldWAbs _ | .ldHAbs _ | .ldBAbs _ | .ldWInd _ | .ldHInd _ | .ldBInd _
  | .ldWMem _ | .ldWLen | .ldxWImm _ | .ldxWMem _ | .ldxWLen | .ldxBMsh _ | .st _ | .stx _
  | .jmpJa _ | .aluAddK _ | .aluSubK _ | .aluMulK _ | .aluDivK _ | .aluOrK _ | .aluAndK _
  | .aluLshK _ | .aluRshK _ | .aluAddX | .aluSubX | .aluMulX | .aluDivX | .aluOrX | .aluAndX
  | .aluLshX | .aluRshX | .aluNeg | .miscTax | .miscTxa | .retK _ | .retA => 0

/-- The `jf` field an encoder writes: 0 in an instruction that has none (30_encoding.md R102). -/
def Instr.jf : Instr → Count
  | .jmpJeqK _ jf _ | .jmpJgtK _ jf _ | .jmpJgeK _ jf _ | .jmpJsetK _ jf _ | .jmpJeqX _ jf
  | .jmpJgtX _ jf | .jmpJgeX _ jf | .jmpJsetX _ jf => jf
  | .ldWImm _ | .ldWAbs _ | .ldHAbs _ | .ldBAbs _ | .ldWInd _ | .ldHInd _ | .ldBInd _
  | .ldWMem _ | .ldWLen | .ldxWImm _ | .ldxWMem _ | .ldxWLen | .ldxBMsh _ | .st _ | .stx _
  | .jmpJa _ | .aluAddK _ | .aluSubK _ | .aluMulK _ | .aluDivK _ | .aluOrK _ | .aluAndK _
  | .aluLshK _ | .aluRshK _ | .aluAddX | .aluSubX | .aluMulX | .aluDivX | .aluOrX | .aluAndX
  | .aluLshX | .aluRshX | .aluNeg | .miscTax | .miscTxa | .retK _ | .retA => 0

/-- The `k` field an encoder writes: 0 in an instruction that has none (30_encoding.md R102). -/
def Instr.k : Instr → Imm
  | .ldWImm k | .ldWAbs k | .ldHAbs k | .ldBAbs k | .ldWInd k | .ldHInd k | .ldBInd k
  | .ldWMem k | .ldxWImm k | .ldxWMem k | .ldxBMsh k | .st k | .stx k | .jmpJa k
  | .jmpJeqK _ _ k | .jmpJgtK _ _ k | .jmpJgeK _ _ k | .jmpJsetK _ _ k | .aluAddK k
  | .aluSubK k | .aluMulK k | .aluDivK k | .aluOrK k | .aluAndK k | .aluLshK k | .aluRshK k
  | .retK k => k
  | .ldWLen | .ldxWLen | .jmpJeqX _ _ | .jmpJgtX _ _ | .jmpJgeX _ _ | .jmpJsetX _ _ | .aluAddX
  | .aluSubX | .aluMulX | .aluDivX | .aluOrX | .aluAndX | .aluLshX | .aluRshX | .aluNeg
  | .miscTax | .miscTxa | .retA => 0

/-- The encoder: the word of an instruction (30_encoding.md R102). -/
def encode (i : Instr) : Word := makeWord i.code i.jt i.jf i.k

/-! ## The opcode table's numbering -/

/-- The instruction word whose bits are `w`, of which the table gives `nbits`; the bits above are 0.
An instruction is one 64-bit word and the engine has no byte order for it (20_memory.md R56, 30_encoding.md R81),
so the table's bit numbers are the word's own. -/
def tableWord (nbits w : Nat) : Word := BitVec.ofNat 64 (w % 2 ^ nbits)

/-- What the decoder reads from an instruction given in the opcode table's numbering. -/
def decodeTableWord (nbits w : Nat) : Option Instr :=
  match decode (tableWord nbits w) with
  | .ok i => some i
  | .error _ => none

end Sys2Proof
end

