-- ==== Sys2Proof/Config.lean ====
section
/-!
DEFINITION. What an implementation fixes: the constants of 00_scope.md R7 that are not widths, and
the free values: opaque constants without a body, so that nothing can be proved of their values.
-/

namespace Sys2Proof.Config

/-- `MEMWORDS`: the number of scratch slots (00_scope.md R7). -/
abbrev memWords : Nat := 16

/-- `PROGLEN_MAX`: the largest program the engine indexes (00_scope.md R7). -/
abbrev progLenMax : Nat := 2 ^ 32

/-- FREE VALUE (DESIGN CHOICE, log entry 6). The byte that lies at a storage position the host
presented no byte for, although the position is inside `CAPLEN`
(93_implementation_defined.md U10: "a real engine would read whatever lies there"). The first
argument is the number of launches so far, so that it is fixed during a run and may differ between
runs; the second is the storage position. -/
opaque unpresentedByte : Nat → Nat → Byte

/-- FREE VALUE (DESIGN CHOICE, log entry 25). What `A`, `X`, `pc` and the scratch slots hold at
power-on, before the first `START` (10_state.md R36, R37): 0 is `A`, 1 is `X`, 2 is `pc`, and
`3 + i` is slot `i`. -/
opaque powerOnWord : Nat → Word

end Sys2Proof.Config
end

