-- ==== Sys2Proof/Machine/State.lean ====
section
/-!
DEFINITION. The state of the engine (10_state.md R20 to R37), the reasons a step of the model can
stop, and the state after reset. Plain data throughout.
-/

namespace Sys2Proof.Machine

/-- `STATUS` (10_state.md R31), its eight codes by name. -/
inductive Status where
  /-- 0: no run has been started since power-on -/
  | idle
  /-- 1: a run is in progress -/
  | running
  /-- 2: a `RET` was executed -/
  | doneReturn
  /-- 3: a packet read failed the bounds check -/
  | doneRejectBounds
  /-- 4: a `DIV` had a zero divisor -/
  | doneRejectDivzero
  /-- 5: the fetched `code` is not a legal code -/
  | faultIllegal
  /-- 6: a fetch with `pc >= PROGLEN` -/
  | faultIndexPc
  /-- 7: a scratch index of 16 or more -/
  | faultIndexMem
  deriving DecidableEq, Repr

/-- `FAULT_KIND` (10_state.md R33), its three codes by name. -/
inductive FaultKind where
  /-- 0: illegal instruction -/
  | illegal
  /-- 1: fetch index out of range -/
  | fetchIndex
  /-- 2: scratch index out of range -/
  | scratchIndex
  deriving DecidableEq, Repr

/-- The ports `FAULT_KIND`, `FAULT_CODE`, `FAULT_PC` and `FAULT_INDEX` (10_state.md R33). -/
structure FaultInfo where
  kind : FaultKind
  code : BitVec 16
  pc : Word
  index : Word
  deriving DecidableEq, Repr

/-- The value a run delivers: none yet, a verdict, or fault information. A sum type, so that a fault
never reads as the verdict 0 (10_state.md R32, R33; log entry 9). -/
inductive RunOutcome where
  /-- no port holds a value -/
  | none
  /-- `VERDICT` holds `v` -/
  | verdict (v : Word)
  /-- the `FAULT_` ports hold `info` -/
  | fault (info : FaultInfo)
  deriving DecidableEq, Repr

/-- `BYTE_ORDER` (10_state.md R29): 0 is `BIG`, 1 is `LITTLE`. -/
inductive ByteOrder where
  | big
  | little
  deriving DecidableEq, Repr

/-- The run inputs, which the host writes before `START` and no instruction changes (10_state.md
R21, R29; that they stand in the state is log entry 2). -/
structure RunInputs where
  /-- `Prog`: the words of the program space by index -/
  prog : List (Nat × Word)
  /-- `PROGLEN` -/
  progLen : BitVec 33
  /-- `Pkt`: the bytes of the packet buffer storage by position -/
  storage : List Host.Cell
  /-- `BUFBASE`: the storage position of packet byte 0 -/
  bufBase : BitVec 64
  /-- `BYTE_ORDER` -/
  byteOrder : ByteOrder
  /-- `WIRELEN` -/
  wireLen : BitVec 32
  /-- `CAPLEN` -/
  capLen : BitVec 32
  deriving DecidableEq, Repr

/-- The state of one engine and of the ports to its host. -/
structure State where
  /-- the accumulator `A` (10_state.md R22) -/
  a : Word
  /-- the index register `X` (R23) -/
  x : Word
  /-- the scratch slots `M[0]` to `M[15]` (R25) -/
  m : Vector Word Config.memWords
  /-- the program counter, an instruction index (R26) -/
  pc : Word
  /-- `STATUS` (R31) -/
  status : Status
  /-- `VERDICT` and the `FAULT_` ports (R32, R33) -/
  outcome : RunOutcome
  /-- the inputs of the run (R29) -/
  inputs : RunInputs
  /-- the model's own field (log entry 3): the `START` events the host has still to issue, each with
  the inputs it presents (R30) -/
  launches : List RunInputs
  /-- the model's own field (log entry 6): how many launches there were; the free bytes of a run
  are taken from it -/
  freeSeed : Nat
  deriving DecidableEq, Repr

/-- The faults of the MODEL: what stops a step although the engine's rules describe no ending. The
engine's own faults are endings of a run, which are next states (60_exceptions.md R230; log
entry 1). -/
inductive Fault where
  /-- Raised by the fetch of `step` when `pc < PROGLEN` and the host loaded no word at `pc`
  (70_reset_and_hazards.md R262 duty 1: what happens is "unsaid"). Safe: the model stops where the
  spec says nothing. -/
  | programWordAbsent (index : Nat)
  deriving DecidableEq, Repr

/-- What the model refuses. -/
inductive Refusal where
  /-- Raised by an arm of `exec` for an instruction without a meaning; no arm does. Safe. -/
  | notModelled (mnemonic : String)
  /-- Raised by `step` at a `START` whose `PROGLEN` is above `PROGLEN_MAX` (70_reset_and_hazards.md
  R262 duty 3: "not representable; a model refuses the launch"). Safe. -/
  | launchTooLong (progLen : Nat)
  deriving DecidableEq, Repr

/-- What a step or an instruction answers. -/
abbrev Result := Host.Outcome State Fault Refusal

/-- The inputs of a run for which the host has presented nothing (DESIGN CHOICE, log entry 5). -/
def RunInputs.empty : RunInputs where
  prog := []
  progLen := 0
  storage := []
  bufBase := 0
  byteOrder := .big
  wireLen := 0
  capLen := 0

/-- The engine after its reset, which is the start of a run (70_reset_and_hazards.md R260, 10_state.md
R36): registers, scratch slots and `pc` are 0 and `STATUS` is `RUNNING`. No program and no packet is
presented (log entry 5). -/
def State.reset : State where
  a := 0
  x := 0
  m := Vector.replicate Config.memWords 0
  pc := 0
  status := .running
  outcome := .none
  inputs := RunInputs.empty
  launches := []
  freeSeed := 0

end Sys2Proof.Machine
end

