-- ==== Sys2Proof/Machine/Memory.lean ====
section
/-!
DEFINITION. The two spaces the host fills, the program space and the packet storage, as lists of
(address, unit) pairs in one canonical form: addresses strictly rising. An address that is not listed
reads as no value, so the form has no entry to leave out (log entries 6 and 7).
-/

namespace Sys2Proof.Machine

/-- A sparse space: the units presented, each with its address. -/
abbrev Memory (α : Type) := List (Nat × α)

/-- The canonical form: addresses strictly rising. -/
abbrev Memory.wf {α : Type} (mem : Memory α) : Prop :=
  (mem.map Prod.fst).Pairwise (· < ·)

/-- The unit at an address, or none where none was presented. -/
def Memory.read {α : Type} : Memory α → Nat → Option α
  | [], _ => none
  | (addr, v) :: rest, i => if i = addr then some v else Memory.read rest i

/-- Presents a unit at an address. Only the host writes a space (20_memory.md R51, R52; 00_scope.md
R13: no instruction writes a byte-addressed memory). -/
def Memory.write {α : Type} : Memory α → Nat → α → Memory α
  | [], i, v => [(i, v)]
  | (addr, old) :: rest, i, v =>
    if i < addr then (i, v) :: (addr, old) :: rest
    else if i = addr then (i, v) :: rest
    else (addr, old) :: Memory.write rest i v

/-- The units of a list presented at consecutive addresses from `base`. -/
def Memory.ofList {α : Type} (base : Nat) : List α → Memory α
  | [] => []
  | v :: rest => (base, v) :: Memory.ofList (base + 1) rest

end Sys2Proof.Machine
end

