-- ==== Sys2Proof/Machine/Operands.lean ====
section
/-!
DEFINITION. The operand forms: how the fields of an instruction become values, offsets, slot indices
and targets (30_encoding.md R83 to R85; 40_load.md R111).
-/

namespace Sys2Proof.Machine

/-- The size of a packet read (30_encoding.md R88). -/
inductive Size where
  | w
  | h
  | b
  deriving DecidableEq, Repr

/-- `W` is 4 bytes, `H` 2, `B` 1 (20_memory.md R59). -/
def Size.bytes : Size → Nat
  | .w => 4
  | .h => 2
  | .b => 1

/-- `k` as an operand: the 32-bit field zero-extended to 64 bits (30_encoding.md R83). -/
def immediate (k : Imm) : Word := k.setWidth 64

/-- A 32-bit length port as a 64-bit value (40_load.md R118, R123). -/
def lengthValue (len : BitVec 32) : Word := len.setWidth 64

/-- Mode `ABS`, and the offset of `MSH`: `off = k` (40_load.md R111). -/
def absOffset (k : Imm) : Nat := k.toNat

/-- Mode `IND`: `off = X + k`, the exact sum, not reduced modulo anything (20_memory.md R62). -/
def indOffset (x : Word) (k : Imm) : Nat := x.toNat + k.toNat

/-- The scratch slot that `k` names, none when `k >= 16`: all 32 bits are compared and the index is
not reduced modulo 16 (20_memory.md R63). -/
def slotIndex (k : Imm) : Option (Fin Config.memWords) :=
  if h : k.toNat < Config.memWords then some ⟨k.toNat, h⟩ else none

/-- The count of a shift: the low 6 bits of the operand (43_alu.md R173). -/
def shiftCount (opnd : Word) : Nat := opnd.toNat % 64

/-- `MSH`: four times the low nibble of a byte (40_load.md R124). -/
def mshValue (v : Word) : Word := (v &&& 0x0F) <<< 2

/-- The target of a conditional jump at `pc` with the selected offset (42_jump.md R152). -/
def branchTarget (pc : Word) (offset : Count) : Word := pc + 1 + offset.setWidth 64

/-- The target of `JA`: `k` itself, an absolute index (42_jump.md R153). -/
def absoluteTarget (k : Imm) : Word := immediate k

end Sys2Proof.Machine
end

