-- ==== Sys2Proof/Machine/Ops.lean ====
section
/-!
DEFINITION. The named operations over registers, scratch slots, the packet and the program, the one
operation that ends a run (what other machines call taking an exception, 60_exceptions.md R230) with
its six uses, and the host's `START`. There is no return from an ending (60_exceptions.md R232): the
only way forward is `START`, which stands beside it.
-/

namespace Sys2Proof.Machine

/-! ## Registers and scratch slots -/

/-- `A <- v` (10_state.md R22). -/
def State.setA (s : State) (v : Word) : State := { s with a := v }

/-- `X <- v` (10_state.md R23). -/
def State.setX (s : State) (v : Word) : State := { s with x := v }

/-- `pc <- v` (00_scope.md R15). -/
def State.setPc (s : State) (v : Word) : State := { s with pc := v }

/-- `pc <- pc + 1` (10_state.md R27). -/
def State.advance (s : State) : State := s.setPc (s.pc + 1)

/-- `M[i]`, read (20_memory.md R53). -/
def State.slot (s : State) (i : Fin Config.memWords) : Word := s.m.get i

/-- `M[i] <- v`: the whole slot (20_memory.md R53). -/
def State.setSlot (s : State) (i : Fin Config.memWords) (v : Word) : State :=
  { s with m := s.m.set i v }

/-! ## Ending a run -/

/-- Every ending does the same thing: it writes the outcome ports and nothing else
(60_exceptions.md R230). -/
def State.endRun (s : State) (status : Status) (outcome : RunOutcome) : State :=
  { s with status := status, outcome := outcome }

/-- `halt Return(v)` (60_exceptions.md R221). -/
def State.haltReturn (s : State) (v : Word) : State := s.endRun .doneReturn (.verdict v)

/-- `halt Reject(Bounds)` (60_exceptions.md R222). -/
def State.rejectBounds (s : State) : State := s.endRun .doneRejectBounds (.verdict 0)

/-- `halt Reject(DivZero)` (60_exceptions.md R223). -/
def State.rejectDivZero (s : State) : State := s.endRun .doneRejectDivzero (.verdict 0)

/-- `raise IllegalInstruction(code, pc)` (60_exceptions.md R224). -/
def State.raiseIllegal (s : State) (code : Code) : State :=
  s.endRun .faultIllegal (.fault ⟨.illegal, code, s.pc, 0⟩)

/-- `raise IndexOutOfRange(PC, pc, pc)` (60_exceptions.md R226). -/
def State.raiseIndexPc (s : State) : State :=
  s.endRun .faultIndexPc (.fault ⟨.fetchIndex, 0, s.pc, s.pc⟩)

/-- `raise IndexOutOfRange(MEM, k, pc)` by the instruction with the given `code` (60_exceptions.md
R225). -/
def State.raiseIndexMem (s : State) (code : Code) (k : Imm) : State :=
  s.endRun .faultIndexMem (.fault ⟨.scratchIndex, code, s.pc, immediate k⟩)

/-! ## The packet -/

/-- The storage position of packet offset `off`: `BUFBASE + off` (20_memory.md R58), the exact sum
(DEDUCED, log entry 18). -/
def RunInputs.position (r : RunInputs) (off : Nat) : Nat := r.bufBase.toNat + off

/-- `Pkt[off]` (00_scope.md R13, 20_memory.md R58): the byte the host presented, or the free byte of
log entry 6 where it presented none. -/
def State.packetByte (s : State) (off : Nat) : Byte :=
  match Memory.read s.inputs.storage (s.inputs.position off) with
  | some v => v
  | none => Config.unpresentedByte s.freeSeed (s.inputs.position off)

/-- The bytes at offsets `off` to `off + n - 1`, the lowest offset first. -/
def State.packetBytes (s : State) (off n : Nat) : List Byte :=
  (List.range n).map fun i => s.packetByte (off + i)

/-- The number that bytes stand for when the first is the most significant (20_memory.md R54). -/
def bigEndian (bytes : List Byte) : Nat :=
  bytes.foldl (fun acc v => acc * 2 ^ 8 + v.toNat) 0

/-- The number that bytes stand for when the first is the least significant (20_memory.md R55). -/
def littleEndian (bytes : List Byte) : Nat :=
  bytes.foldr (fun v acc => v.toNat + acc * 2 ^ 8) 0

/-- `MemRead(off, n)` (00_scope.md R13): `n` packet bytes in the run's byte order. -/
def State.memRead (s : State) (off n : Nat) : Nat :=
  match s.inputs.byteOrder with
  | .big => bigEndian (s.packetBytes off n)
  | .little => littleEndian (s.packetBytes off n)

/-- The bounds check `off + n <= CAPLEN`, over the naturals (20_memory.md R61, R62). -/
def State.inBounds (s : State) (off n : Nat) : Bool := decide (off + n ≤ s.inputs.capLen.toNat)

/-- A packet read of the given size at `off`: checked first, and then `use` gets the value
zero-extended to 64 bits; out of bounds it ends the run with the bounds reject (20_memory.md R59,
R61). -/
def State.packetLoad (s : State) (size : Size) (off : Nat) (use : Word → State) : Result :=
  if s.inBounds off size.bytes then .next (use (BitVec.ofNat 64 (s.memRead off size.bytes)))
  else .next s.rejectBounds

/-! ## Scratch accesses of the instructions -/

/-- An access to the scratch slot `k` by the instruction with the given `code`: `use` gets the slot's
index, and `k >= 16` raises the fault and touches no slot (20_memory.md R63). -/
def State.withSlot (s : State) (code : Code) (k : Imm) (use : Fin Config.memWords → State) : Result :=
  match slotIndex k with
  | some i => .next (use i)
  | none => .next (s.raiseIndexMem code k)

/-! ## Results of the arithmetic and the jumps -/

/-- `A <- v; pc <- pc + 1` (43_alu.md R170, 40_load.md R110). -/
def State.intoA (s : State) (v : Word) : State := (s.setA v).advance

/-- `X <- v; pc <- pc + 1` (40_load.md R110). -/
def State.intoX (s : State) (v : Word) : State := (s.setX v).advance

/-- `DIV` by `d`: unsigned, rounding toward zero; a zero divisor ends the run with the division reject
(43_alu.md R171, R174). -/
def State.divideA (s : State) (d : Word) : Result :=
  if d = 0 then .next s.rejectDivZero else .next (s.intoA (s.a / d))

/-- `pc <- pc + 1 + (if cond then jt else jf)` (42_jump.md R152). -/
def State.branch (s : State) (cond : Bool) (jt jf : Count) : Result :=
  .next (s.setPc (branchTarget s.pc (if cond then jt else jf)))

/-! ## Fetch -/

/-- The fetch check `pc >= PROGLEN` (60_exceptions.md R226). -/
def State.pcOutside (s : State) : Bool := decide (s.inputs.progLen.toNat ≤ s.pc.toNat)

/-- `Prog[pc]` (00_scope.md R12), none where the host loaded no word. -/
def State.fetchWord (s : State) : Option Word := Memory.read s.inputs.prog s.pc.toNat

/-! ## START, power-on and the reset signal -/

/-- What `START` does, as one indivisible action (70_reset_and_hazards.md R260): everything a previous
run left is cleared. It also counts the launch (log entry 6) and takes it off the host's list
(log entry 3). -/
def State.start (s : State) (r : RunInputs) : State where
  a := 0
  x := 0
  m := Vector.replicate Config.memWords 0
  pc := 0
  status := .running
  outcome := .none
  inputs := r
  launches := s.launches.tail
  freeSeed := s.freeSeed + 1

/-- An engine that is not `RUNNING` does nothing until `START` (60_exceptions.md R238), which it
accepts (10_state.md R30) unless `PROGLEN` is above its largest value (70_reset_and_hazards.md R262
duty 3). -/
def State.awaitStart (s : State) : Result :=
  match s.launches with
  | [] => .next s
  | r :: _ =>
    if Config.progLenMax < r.progLen.toNat then .refused (.launchTooLong r.progLen.toNat)
    else .next (s.start r)

/-- The engine at power-on, before the first `START` (10_state.md R36, 70_reset_and_hazards.md R261):
`IDLE`, with free values in the registers (log entry 25), facing a host that will issue the given
launches. -/
def State.powerOn (launches : List RunInputs) : State where
  a := Config.powerOnWord 0
  x := Config.powerOnWord 1
  m := Vector.ofFn fun i => Config.powerOnWord (3 + i.val)
  pc := Config.powerOnWord 2
  status := .idle
  outcome := .none
  inputs := RunInputs.empty
  launches := launches
  freeSeed := 0

/-- A hardware reset signal, where an implementation has one: back to `IDLE`, the run in progress
abandoned without an outcome (70_reset_and_hazards.md R261; log entry 26). No step issues it. -/
def State.hardwareReset (s : State) : State := s.endRun .idle .none

/-! ## The ports as the host reads them -/

/-- The three bits of `STATUS` (10_state.md R31). -/
def Status.bits : Status → BitVec 3
  | .idle => 0
  | .running => 1
  | .doneReturn => 2
  | .doneRejectBounds => 3
  | .doneRejectDivzero => 4
  | .faultIllegal => 5
  | .faultIndexPc => 6
  | .faultIndexMem => 7

/-- The two bits of `FAULT_KIND` (10_state.md R33). -/
def FaultKind.bits : FaultKind → BitVec 2
  | .illegal => 0
  | .fetchIndex => 1
  | .scratchIndex => 2

/-- The bit of `BYTE_ORDER` (10_state.md R29). -/
def ByteOrder.bit : ByteOrder → BitVec 1
  | .big => 0
  | .little => 1

/-- What the caller of `execute()` gets (10_state.md R31, 60_exceptions.md R231). -/
inductive CallerResult where
  /-- the unsigned 64-bit value, 0 for a reject -/
  | verdict (v : Word)
  /-- the illegal-instruction error with the opcode and the program counter -/
  | illegalInstruction (code : Code) (pc : Word)
  /-- the index-out-of-range error with the index and the program counter -/
  | indexOutOfRange (index pc : Word)
  deriving DecidableEq, Repr

/-- What the caller sees of a state: nothing before the halt, a verdict or an error after it
(10_state.md R31 to R33). -/
def State.callerSees (s : State) : Option CallerResult :=
  match s.outcome with
  | .none => none
  | .verdict v => some (.verdict v)
  | .fault info =>
    match info.kind with
    | .illegal => some (.illegalInstruction info.code info.pc)
    | .fetchIndex | .scratchIndex => some (.indexOutOfRange info.index info.pc)

end Sys2Proof.Machine
end

