-- ==== Sys2Proof/Machine/Alu.lean ====
section
/-!
DEFINITION. The 17 ALU instructions (43_alu.md R170 to R191). `A` is the first operand and gets the result; every
value is unsigned and 64 bits wide, and nothing wraps at 32 bits (R171, R172).
-/

namespace Sys2Proof.Machine

/-- `ALU ADD K` (43_alu.md R175): the sum modulo 2^64. -/
def execAluAddK (k : Imm) (s : State) : Result :=
  .next (s.intoA (s.a + immediate k))

/-- `ALU SUB K` (43_alu.md R176): the difference modulo 2^64. -/
def execAluSubK (k : Imm) (s : State) : Result :=
  .next (s.intoA (s.a - immediate k))

/-- `ALU MUL K` (43_alu.md R177): the low 64 bits of the product. -/
def execAluMulK (k : Imm) (s : State) : Result :=
  .next (s.intoA (s.a * immediate k))

/-- `ALU DIV K` (43_alu.md R178): the unsigned quotient, a zero divisor rejects. -/
def execAluDivK (k : Imm) (s : State) : Result :=
  s.divideA (immediate k)

/-- `ALU OR K` (43_alu.md R179): bitwise or. -/
def execAluOrK (k : Imm) (s : State) : Result :=
  .next (s.intoA (s.a ||| immediate k))

/-- `ALU AND K` (43_alu.md R180): bitwise and. -/
def execAluAndK (k : Imm) (s : State) : Result :=
  .next (s.intoA (s.a &&& immediate k))

/-- `ALU LSH K` (43_alu.md R181): shift left, the count modulo 64. -/
def execAluLshK (k : Imm) (s : State) : Result :=
  .next (s.intoA (s.a <<< shiftCount (immediate k)))

/-- `ALU RSH K` (43_alu.md R182): logical shift right, the count modulo 64. -/
def execAluRshK (k : Imm) (s : State) : Result :=
  .next (s.intoA (s.a >>> shiftCount (immediate k)))

/-- `ALU ADD X` (43_alu.md R183): the sum modulo 2^64. -/
def execAluAddX (s : State) : Result :=
  .next (s.intoA (s.a + s.x))

/-- `ALU SUB X` (43_alu.md R184): the difference modulo 2^64. -/
def execAluSubX (s : State) : Result :=
  .next (s.intoA (s.a - s.x))

/-- `ALU MUL X` (43_alu.md R185): the low 64 bits of the product. -/
def execAluMulX (s : State) : Result :=
  .next (s.intoA (s.a * s.x))

/-- `ALU DIV X` (43_alu.md R186): the unsigned quotient, a zero divisor rejects. -/
def execAluDivX (s : State) : Result :=
  s.divideA s.x

/-- `ALU OR X` (43_alu.md R187): bitwise or. -/
def execAluOrX (s : State) : Result :=
  .next (s.intoA (s.a ||| s.x))

/-- `ALU AND X` (43_alu.md R188): bitwise and. -/
def execAluAndX (s : State) : Result :=
  .next (s.intoA (s.a &&& s.x))

/-- `ALU LSH X` (43_alu.md R189): shift left, the count modulo 64. -/
def execAluLshX (s : State) : Result :=
  .next (s.intoA (s.a <<< shiftCount s.x))

/-- `ALU RSH X` (43_alu.md R190): logical shift right, the count modulo 64. -/
def execAluRshX (s : State) : Result :=
  .next (s.intoA (s.a >>> shiftCount s.x))

/-- `ALU NEG` (43_alu.md R191): two's complement negation. -/
def execAluNeg (s : State) : Result :=
  .next (s.intoA (-s.a))

end Sys2Proof.Machine
end

