-- ==== Sys2Proof/Machine/Flags.lean ====
section
/-!
DEFINITION. The engine has no flags: no instruction records a carry, an overflow, a zero or a sign
(10_state.md R28). What stands in their place are the four conditions, which a conditional jump
computes from `A` and its operand and nothing remembers. All are unsigned and 64 bits wide
(42_jump.md R151).
-/

namespace Sys2Proof.Machine

/-- `JEQ`: all 64 bits are equal (42_jump.md R154, R158). -/
def condEq (a opnd : Word) : Bool := a == opnd

/-- `JGT`: unsigned greater (42_jump.md R155, R159). -/
def condGt (a opnd : Word) : Bool := opnd.ult a

/-- `JGE`: unsigned greater or equal (42_jump.md R156, R160). -/
def condGe (a opnd : Word) : Bool := opnd.ule a

/-- `JSET`: some bit is set in both (42_jump.md R157, R161). -/
def condSet (a opnd : Word) : Bool := (a &&& opnd) != 0

end Sys2Proof.Machine
end

