-- ==== Sys2Proof/Machine/Jump.lean ====
section
/-!
DEFINITION. The nine jumps (42_jump.md R150 to R161).
-/

namespace Sys2Proof.Machine

/-- `JMP JA` (42_jump.md R153): to the absolute index `k`. -/
def execJmpJa (k : Imm) (s : State) : Result :=
  .next (s.setPc (absoluteTarget k))

/-- `JMP JEQ K` (42_jump.md R154): on `A = k`. -/
def execJmpJeqK (jt jf : Count) (k : Imm) (s : State) : Result :=
  s.branch (condEq s.a (immediate k)) jt jf

/-- `JMP JGT K` (42_jump.md R155): on `A > k`. -/
def execJmpJgtK (jt jf : Count) (k : Imm) (s : State) : Result :=
  s.branch (condGt s.a (immediate k)) jt jf

/-- `JMP JGE K` (42_jump.md R156): on `A >= k`. -/
def execJmpJgeK (jt jf : Count) (k : Imm) (s : State) : Result :=
  s.branch (condGe s.a (immediate k)) jt jf

/-- `JMP JSET K` (42_jump.md R157): on `(A & k) != 0`. -/
def execJmpJsetK (jt jf : Count) (k : Imm) (s : State) : Result :=
  s.branch (condSet s.a (immediate k)) jt jf

/-- `JMP JEQ X` (42_jump.md R158): on `A = X`. -/
def execJmpJeqX (jt jf : Count) (s : State) : Result :=
  s.branch (condEq s.a s.x) jt jf

/-- `JMP JGT X` (42_jump.md R159): on `A > X`. -/
def execJmpJgtX (jt jf : Count) (s : State) : Result :=
  s.branch (condGt s.a s.x) jt jf

/-- `JMP JGE X` (42_jump.md R160): on `A >= X`. -/
def execJmpJgeX (jt jf : Count) (s : State) : Result :=
  s.branch (condGe s.a s.x) jt jf

/-- `JMP JSET X` (42_jump.md R161): on `(A & X) != 0`. -/
def execJmpJsetX (jt jf : Count) (s : State) : Result :=
  s.branch (condSet s.a s.x) jt jf

end Sys2Proof.Machine
end

