-- ==== Sys2Proof/Machine/Load.lean ====
section
/-!
DEFINITION. The 13 loads (40_load.md R110 to R124).
-/

namespace Sys2Proof.Machine

/-- `LD W ABS` (40_load.md R112): 4 bytes at packet offset `k` into `A`. -/
def execLdWAbs (k : Imm) (s : State) : Result :=
  s.packetLoad .w (absOffset k) fun v => s.intoA v

/-- `LD H ABS` (40_load.md R113): 2 bytes at packet offset `k` into `A`. -/
def execLdHAbs (k : Imm) (s : State) : Result :=
  s.packetLoad .h (absOffset k) fun v => s.intoA v

/-- `LD B ABS` (40_load.md R114): 1 byte at packet offset `k` into `A`. -/
def execLdBAbs (k : Imm) (s : State) : Result :=
  s.packetLoad .b (absOffset k) fun v => s.intoA v

/-- `LD W IND` (40_load.md R115): 4 bytes at packet offset `X + k` into `A`. -/
def execLdWInd (k : Imm) (s : State) : Result :=
  s.packetLoad .w (indOffset s.x k) fun v => s.intoA v

/-- `LD H IND` (40_load.md R116): 2 bytes at packet offset `X + k` into `A`. -/
def execLdHInd (k : Imm) (s : State) : Result :=
  s.packetLoad .h (indOffset s.x k) fun v => s.intoA v

/-- `LD B IND` (40_load.md R117): 1 byte at packet offset `X + k` into `A`. -/
def execLdBInd (k : Imm) (s : State) : Result :=
  s.packetLoad .b (indOffset s.x k) fun v => s.intoA v

/-- `LD W LEN` (40_load.md R118): the wire length into `A`, no bounds check. -/
def execLdWLen (s : State) : Result :=
  .next (s.intoA (lengthValue s.inputs.wireLen))

/-- `LD W IMM` (40_load.md R119): `k` into `A`. -/
def execLdWImm (k : Imm) (s : State) : Result :=
  .next (s.intoA (immediate k))

/-- `LD W MEM` (40_load.md R120): the whole scratch slot `k` into `A`. -/
def execLdWMem (k : Imm) (s : State) : Result :=
  s.withSlot (Instr.code (.ldWMem k)) k fun i => s.intoA (s.slot i)

/-- `LDX W IMM` (40_load.md R121): `k` into `X`. -/
def execLdxWImm (k : Imm) (s : State) : Result :=
  .next (s.intoX (immediate k))

/-- `LDX W MEM` (40_load.md R122): the whole scratch slot `k` into `X`. -/
def execLdxWMem (k : Imm) (s : State) : Result :=
  s.withSlot (Instr.code (.ldxWMem k)) k fun i => s.intoX (s.slot i)

/-- `LDX W LEN` (40_load.md R123): the wire length into `X`. -/
def execLdxWLen (s : State) : Result :=
  .next (s.intoX (lengthValue s.inputs.wireLen))

/-- `LDX B MSH` (40_load.md R124): four times the low nibble of the packet byte at offset `k` into `X`. -/
def execLdxBMsh (k : Imm) (s : State) : Result :=
  s.packetLoad .b (absOffset k) fun v => s.intoX (mshValue v)

end Sys2Proof.Machine
end

