-- ==== Sys2Proof/Machine/Misc.lean ====
section
/-!
DEFINITION. The two register transfers (44_misc.md R200 to R202).
-/

namespace Sys2Proof.Machine

/-- `MISC TAX` (44_misc.md R201): `A` into `X`. -/
def execMiscTax (s : State) : Result :=
  .next (s.intoX s.a)

/-- `MISC TXA` (44_misc.md R202): `X` into `A`. -/
def execMiscTxa (s : State) : Result :=
  .next (s.intoA s.x)

end Sys2Proof.Machine
end

