-- ==== Sys2Proof/Machine/Return.lean ====
section
/-!
DEFINITION. The two returns (45_return.md R210 to R212).
-/

namespace Sys2Proof.Machine

/-- `RET K` (45_return.md R211): end the run with verdict `k`. -/
def execRetK (k : Imm) (s : State) : Result :=
  .next (s.haltReturn (immediate k))

/-- `RET A` (45_return.md R212): end the run with verdict `A`, all 64 bits. -/
def execRetA (s : State) : Result :=
  .next (s.haltReturn s.a)

end Sys2Proof.Machine
end

