-- ==== Sys2Proof/Machine/Store.lean ====
section
/-!
DEFINITION. The two stores (41_store.md R140 to R142).
-/

namespace Sys2Proof.Machine

/-- `ST` (41_store.md R141): `A` into scratch slot `k`. -/
def execSt (k : Imm) (s : State) : Result :=
  s.withSlot (Instr.code (.st k)) k fun i => (s.setSlot i s.a).advance

/-- `STX` (41_store.md R142): `X` into scratch slot `k`. -/
def execStx (k : Imm) (s : State) : Result :=
  s.withSlot (Instr.code (.stx k)) k fun i => (s.setSlot i s.x).advance

end Sys2Proof.Machine
end

