-- ==== Sys2Proof/Machine/Dispatch.lean ====
section
/-!
DEFINITION. One arm per instruction: its meaning.
-/

namespace Sys2Proof.Machine

/-- What an instruction does (00_scope.md R16, "perform the rule of the instruction"). -/
def exec (i : Instr) (s : State) : Host.Outcome State Fault Refusal :=
  match i with
  | .ldWImm k => Sys2Proof.Machine.execLdWImm k s
  | .ldWAbs k => Sys2Proof.Machine.execLdWAbs k s
  | .ldHAbs k => Sys2Proof.Machine.execLdHAbs k s
  | .ldBAbs k => Sys2Proof.Machine.execLdBAbs k s
  | .ldWInd k => Sys2Proof.Machine.execLdWInd k s
  | .ldHInd k => Sys2Proof.Machine.execLdHInd k s
  | .ldBInd k => Sys2Proof.Machine.execLdBInd k s
  | .ldWMem k => Sys2Proof.Machine.execLdWMem k s
  | .ldWLen => Sys2Proof.Machine.execLdWLen s
  | .ldxWImm k => Sys2Proof.Machine.execLdxWImm k s
  | .ldxWMem k => Sys2Proof.Machine.execLdxWMem k s
  | .ldxWLen => Sys2Proof.Machine.execLdxWLen s
  | .ldxBMsh k => Sys2Proof.Machine.execLdxBMsh k s
  | .st k => Sys2Proof.Machine.execSt k s
  | .stx k => Sys2Proof.Machine.execStx k s
  | .jmpJa k => Sys2Proof.Machine.execJmpJa k s
  | .jmpJeqK jt jf k => Sys2Proof.Machine.execJmpJeqK jt jf k s
  | .jmpJgtK jt jf k => Sys2Proof.Machine.execJmpJgtK jt jf k s
  | .jmpJgeK jt jf k => Sys2Proof.Machine.execJmpJgeK jt jf k s
  | .jmpJsetK jt jf k => Sys2Proof.Machine.execJmpJsetK jt jf k s
  | .jmpJeqX jt jf => Sys2Proof.Machine.execJmpJeqX jt jf s
  | .jmpJgtX jt jf => Sys2Proof.Machine.execJmpJgtX jt jf s
  | .jmpJgeX jt jf => Sys2Proof.Machine.execJmpJgeX jt jf s
  | .jmpJsetX jt jf => Sys2Proof.Machine.execJmpJsetX jt jf s
  | .aluAddK k => Sys2Proof.Machine.execAluAddK k s
  | .aluSubK k => Sys2Proof.Machine.execAluSubK k s
  | .aluMulK k => Sys2Proof.Machine.execAluMulK k s
  | .aluDivK k => Sys2Proof.Machine.execAluDivK k s
  | .aluOrK k => Sys2Proof.Machine.execAluOrK k s
  | .aluAndK k => Sys2Proof.Machine.execAluAndK k s
  | .aluLshK k => Sys2Proof.Machine.execAluLshK k s
  | .aluRshK k => Sys2Proof.Machine.execAluRshK k s
  | .aluAddX => Sys2Proof.Machine.execAluAddX s
  | .aluSubX => Sys2Proof.Machine.execAluSubX s
  | .aluMulX => Sys2Proof.Machine.execAluMulX s
  | .aluDivX => Sys2Proof.Machine.execAluDivX s
  | .aluOrX => Sys2Proof.Machine.execAluOrX s
  | .aluAndX => Sys2Proof.Machine.execAluAndX s
  | .aluLshX => Sys2Proof.Machine.execAluLshX s
  | .aluRshX => Sys2Proof.Machine.execAluRshX s
  | .aluNeg => Sys2Proof.Machine.execAluNeg s
  | .miscTax => Sys2Proof.Machine.execMiscTax s
  | .miscTxa => Sys2Proof.Machine.execMiscTxa s
  | .retK k => Sys2Proof.Machine.execRetK k s
  | .retA => Sys2Proof.Machine.execRetA s

end Sys2Proof.Machine
end

