-- ==== Sys2Proof/Machine/Step.lean ====
section
/-!
DEFINITION. One step (00_scope.md R16), and where a step fetches its next instruction from.
-/

namespace Sys2Proof.Machine

/-- A step of a run in progress. The order of the checks is that of 60_exceptions.md R229: the fetch
index, the legality of `code`, then the instruction's own check. -/
def stepRunning (s : State) : Result :=
  if s.pcOutside then .next s.raiseIndexPc
  else
    match s.fetchWord with
    | none => .fault (.programWordAbsent s.pc.toNat)
    | some w =>
      match decode w with
      | .error (.illegalCode code) => .next (s.raiseIllegal code)
      | .ok i => exec i s

/-- One step: of the run while `STATUS` is `RUNNING`; otherwise the engine does nothing until `START`
(60_exceptions.md R238, 70_reset_and_hazards.md R265). -/
def step (s : State) : Host.Outcome State Fault Refusal :=
  if s.status = .running then stepRunning s else s.awaitStart

/-- The index at which `withFetchWord` puts its word: `pc`, or 0 where no program reaches `pc`. -/
def State.fetchIndex (s : State) : Nat := if s.pc.toNat < Config.progLenMax then s.pc.toNat else 0

/-- `s` with the instruction whose bits are `w` (numbered as the opcode table numbers them) loaded where
the next step fetches: a run is in progress and the word stands at `pc` inside the program. This is
the host's load of a program from outside (log entry 5). -/
def State.withFetchWord (s : State) (nbits w : Nat) : State :=
  { s with
    status := .running
    pc := BitVec.ofNat 64 s.fetchIndex
    inputs := { s.inputs with
      prog := Memory.write s.inputs.prog s.fetchIndex (tableWord nbits w)
      progLen :=
        if s.fetchIndex < s.inputs.progLen.toNat then s.inputs.progLen
        else BitVec.ofNat 33 (s.fetchIndex + 1) } }

end Sys2Proof.Machine
end

