-- ==== Sys2Proof/Machine/Engines.lean ====
section
/-!
DEFINITION. Several engines at once (20_memory.md R71, 60_exceptions.md R237): each has its own
registers, scratch slots, `pc` and outcome ports, and they share only inputs that nobody writes, so
that each state holds its own copy of them. A schedule says which engine takes the next step.
-/

namespace Sys2Proof.Machine

/-- The engines of a system, by number. The number is the schedule's; an engine has no identity
register (60_exceptions.md R237). -/
abbrev Engines := List State

/-- What a step of a system answers. -/
abbrev EnginesResult := Host.Outcome Engines Fault Refusal

/-- Engine `n` takes a step; a number without an engine changes nothing. -/
def stepEngine (n : Nat) (es : Engines) : EnginesResult :=
  match es[n]? with
  | none => .next es
  | some s =>
    match step s with
    | .next t => .next (es.set n t)
    | .fault f => .fault f
    | .refused r => .refused r

/-- The engines step in the order of a schedule, up to the first fault or refusal. -/
def runSchedule : List Nat → Engines → EnginesResult
  | [], es => .next es
  | n :: rest, es =>
    match stepEngine n es with
    | .next es' => runSchedule rest es'
    | .fault f => .fault f
    | .refused r => .refused r

end Sys2Proof.Machine
end

