-- ==== Sys2Proof/WellFormed.lean ====
section
/-!
DEFINITION. What a well-formed instruction and a well-formed program are: the duties of a program's
producer that can be read from the instructions (70_reset_and_hazards.md R263). Every field value
the encoding admits is legal; an ill-formed program runs, and ends in the fault R263 names.
-/

namespace Sys2Proof

/-- R263 (d): the scratch index, where the instruction has one, names a slot. -/
def Instr.wellFormed : Instr → Bool
  | .ldWMem k | .ldxWMem k | .st k | .stx k => decide (k.toNat < Config.memWords)
  | .ldWImm _ | .ldWAbs _ | .ldHAbs _ | .ldBAbs _ | .ldWInd _ | .ldHInd _ | .ldBInd _ | .ldWLen
  | .ldxWImm _ | .ldxWLen | .ldxBMsh _
  | .jmpJa _ | .jmpJeqK _ _ _ | .jmpJgtK _ _ _ | .jmpJgeK _ _ _ | .jmpJsetK _ _ _
  | .jmpJeqX _ _ | .jmpJgtX _ _ | .jmpJgeX _ _ | .jmpJsetX _ _
  | .aluAddK _ | .aluSubK _ | .aluMulK _ | .aluDivK _ | .aluOrK _ | .aluAndK _ | .aluLshK _
  | .aluRshK _ | .aluAddX | .aluSubX | .aluMulX | .aluDivX | .aluOrX | .aluAndX | .aluLshX
  | .aluRshX | .aluNeg | .miscTax | .miscTxa | .retK _ | .retA => true

/-- The indices at which the run can go on after the instruction at index `idx`: known from the
instruction alone (42_jump.md R162). -/
def Instr.successors (idx : Nat) : Instr → List Nat
  | .jmpJa k => [k.toNat]
  | .jmpJeqK jt jf _ | .jmpJgtK jt jf _ | .jmpJgeK jt jf _ | .jmpJsetK jt jf _
  | .jmpJeqX jt jf | .jmpJgtX jt jf | .jmpJgeX jt jf | .jmpJsetX jt jf =>
    [idx + 1 + jt.toNat, idx + 1 + jf.toNat]
  | .retK _ | .retA => []
  | .ldWImm _ | .ldWAbs _ | .ldHAbs _ | .ldBAbs _ | .ldWInd _ | .ldHInd _ | .ldBInd _ | .ldWMem _
  | .ldWLen | .ldxWImm _ | .ldxWMem _ | .ldxWLen | .ldxBMsh _ | .st _ | .stx _
  | .aluAddK _ | .aluSubK _ | .aluMulK _ | .aluDivK _ | .aluOrK _ | .aluAndK _ | .aluLshK _
  | .aluRshK _ | .aluAddX | .aluSubX | .aluMulX | .aluDivX | .aluOrX | .aluAndX | .aluLshX
  | .aluRshX | .aluNeg | .miscTax | .miscTxa => [idx + 1]

/-- R263 (b): every jump target and every fall-through of the instruction at `idx` lies inside a
program of `len` instructions. -/
def Instr.staysInside (len idx : Nat) (i : Instr) : Bool :=
  (i.successors idx).all fun target => decide (target < len)

/-- 60_exceptions.md R239: only a `JA` whose target is not greater than its own index can close a
loop; this says that the instruction at `idx` is none. -/
def Instr.goesForward (idx : Nat) (i : Instr) : Bool :=
  (i.successors idx).all fun target => decide (idx < target)

/-- R263 (b) and (d) for a program given as its list of instructions; `idx` is the index of the
first of the list, `len` the length of the whole program. -/
def instrsWellFormed (len idx : Nat) : List Instr → Bool
  | [] => true
  | i :: rest => i.wellFormed && i.staysInside len idx && instrsWellFormed len (idx + 1) rest

/-- A well-formed program: R263 (b) and (d) (legality, (a), is that it is a list of instructions),
and it is not empty (R262 duty 2). A path of it that ends, ends in a return, a reject, or not at
all (R263 (c), (e)). -/
def programWellFormed (is : List Instr) : Bool :=
  !is.isEmpty && instrsWellFormed is.length 0 is

end Sys2Proof
end

