-- ==== Sys2Proof/Safety.lean ====
section
/-!
DEFINITION. The terms claims are stated in: what an instruction leaves unchanged (frames), which class
reads and writes what (10_state.md R35), what a sound launch is (70_reset_and_hazards.md R262, R263),
which endings are faults, the machine's invariant, and when two states differ only in what a run
must not depend on.
-/

namespace Sys2Proof.Machine

/-! ## Frames -/

/-- No scratch slot changed. -/
def KeepsSlots (s t : State) : Prop := ∀ i, t.slot i = s.slot i

/-- No outcome port changed: `STATUS`, `VERDICT` and the `FAULT_` ports. -/
def KeepsPorts (s t : State) : Prop := t.status = s.status ∧ t.outcome = s.outcome

/-- Nothing the host wrote changed, and every packet byte reads as before. The list of launches (log
entry 3) and the counter of the free bytes (log entry 6) are the model's own fields. -/
def KeepsWorld (s t : State) : Prop :=
  t.inputs = s.inputs ∧ t.launches = s.launches ∧ t.freeSeed = s.freeSeed ∧
    ∀ off, t.packetByte off = s.packetByte off

/-- Only `A` and `pc` may have changed. -/
def WritesOnlyA (s t : State) : Prop :=
  t.x = s.x ∧ KeepsSlots s t ∧ KeepsPorts s t ∧ KeepsWorld s t

/-- Only `X` and `pc` may have changed. -/
def WritesOnlyX (s t : State) : Prop :=
  t.a = s.a ∧ KeepsSlots s t ∧ KeepsPorts s t ∧ KeepsWorld s t

/-- Only scratch slot `i` and `pc` may have changed. -/
def WritesOnlySlot (i : Fin Config.memWords) (s t : State) : Prop :=
  t.a = s.a ∧ t.x = s.x ∧ (∀ j, j ≠ i → t.slot j = s.slot j) ∧ KeepsPorts s t ∧ KeepsWorld s t

/-- Only `pc` may have changed. -/
def WritesOnlyPc (s t : State) : Prop :=
  t.a = s.a ∧ t.x = s.x ∧ KeepsSlots s t ∧ KeepsPorts s t ∧ KeepsWorld s t

/-- The run ended: the outcome ports are written and nothing else (60_exceptions.md R230). -/
def EndsRun (s t : State) (status : Status) (outcome : RunOutcome) : Prop :=
  t.status = status ∧ t.outcome = outcome ∧
    t.a = s.a ∧ t.x = s.x ∧ t.pc = s.pc ∧ KeepsSlots s t ∧ KeepsWorld s t

/-! ## The access table of 10_state.md R35 -/

/-- The state columns of the access table. -/
inductive Column where
  | a
  | x
  | slots
  | packet
  | wireLen
  | capLen
  deriving DecidableEq, Repr

/-- What an instruction reads (the R entries of 10_state.md R35). -/
def readColumns : Instr → List Column
  | .ldWAbs _ | .ldHAbs _ | .ldBAbs _ | .ldxBMsh _ => [.packet, .capLen]
  | .ldWInd _ | .ldHInd _ | .ldBInd _ => [.x, .packet, .capLen]
  | .ldWMem _ | .ldxWMem _ => [.slots]
  | .ldWLen | .ldxWLen => [.wireLen]
  | .st _ | .miscTax | .retA | .aluNeg => [.a]
  | .stx _ | .miscTxa => [.x]
  | .aluAddK _ | .aluSubK _ | .aluMulK _ | .aluDivK _ | .aluOrK _ | .aluAndK _ | .aluLshK _
  | .aluRshK _ => [.a]
  | .aluAddX | .aluSubX | .aluMulX | .aluDivX | .aluOrX | .aluAndX | .aluLshX | .aluRshX => [.a, .x]
  | .jmpJeqK _ _ _ | .jmpJgtK _ _ _ | .jmpJgeK _ _ _ | .jmpJsetK _ _ _ => [.a]
  | .jmpJeqX _ _ | .jmpJgtX _ _ | .jmpJgeX _ _ | .jmpJsetX _ _ => [.a, .x]
  | .ldWImm _ | .ldxWImm _ | .jmpJa _ | .retK _ => []

/-- What an instruction writes (the W entries of 10_state.md R35). -/
def writeColumns : Instr → List Column
  | .ldWAbs _ | .ldHAbs _ | .ldBAbs _ | .ldWInd _ | .ldHInd _ | .ldBInd _ | .ldWImm _ | .ldWMem _
  | .ldWLen => [.a]
  | .ldxWImm _ | .ldxWMem _ | .ldxWLen | .ldxBMsh _ => [.x]
  | .st _ | .stx _ => [.slots]
  | .aluAddK _ | .aluSubK _ | .aluMulK _ | .aluDivK _ | .aluOrK _ | .aluAndK _ | .aluLshK _
  | .aluRshK _ | .aluAddX | .aluSubX | .aluMulX | .aluDivX | .aluOrX | .aluAndX | .aluLshX
  | .aluRshX | .aluNeg => [.a]
  | .miscTax => [.x]
  | .miscTxa => [.a]
  | .jmpJa _ | .jmpJeqK _ _ _ | .jmpJgtK _ _ _ | .jmpJgeK _ _ _ | .jmpJsetK _ _ _
  | .jmpJeqX _ _ | .jmpJgtX _ _ | .jmpJgeX _ _ | .jmpJsetX _ _ | .retK _ | .retA => []

/-- The two states agree in a column: what an instruction could read there is the same. -/
def AgreeIn (s t : State) : Column → Prop
  | .a => s.a = t.a
  | .x => s.x = t.x
  | .slots => KeepsSlots s t
  | .packet => s.inputs.byteOrder = t.inputs.byteOrder ∧ ∀ off, s.packetByte off = t.packetByte off
  | .wireLen => s.inputs.wireLen = t.inputs.wireLen
  | .capLen => s.inputs.capLen = t.inputs.capLen

/-! ## Packet reads as the rules write them out -/

/-- `MemRead(off, n)` for the three sizes as 20_memory.md R54 (`BIG`) and R55 (`LITTLE`) write it. -/
def writtenOutRead (s : State) (off : Nat) (size : Size) : Nat :=
  let byteAt (i : Nat) : Nat := (s.packetByte (off + i)).toNat
  match size, s.inputs.byteOrder with
  | .b, _ => byteAt 0
  | .h, .big => byteAt 0 * 2 ^ 8 + byteAt 1
  | .h, .little => byteAt 0 + byteAt 1 * 2 ^ 8
  | .w, .big => byteAt 0 * 2 ^ 24 + byteAt 1 * 2 ^ 16 + byteAt 2 * 2 ^ 8 + byteAt 3
  | .w, .little => byteAt 0 + byteAt 1 * 2 ^ 8 + byteAt 2 * 2 ^ 16 + byteAt 3 * 2 ^ 24

/-! ## Sound launches and programs -/

/-- R262 duty 1: every index below `PROGLEN` has a word. -/
def ProgramLoaded (r : RunInputs) : Prop :=
  ∀ idx, idx < r.progLen.toNat → ∃ w, Memory.read r.prog idx = some w

/-- R262 duty 4: every packet offset below `CAPLEN` has a byte in the storage. -/
def PacketPresented (r : RunInputs) : Prop :=
  ∀ off, off < r.capLen.toNat → ∃ v, Memory.read r.storage (r.position off) = some v

/-- R263 (a), (b), (d): every word of the program is a legal instruction, names an existing slot where
it names one, and can go on only inside the program; and the program is not empty (R262 duty 2). -/
def ProgramSound (r : RunInputs) : Prop :=
  0 < r.progLen.toNat ∧ ∀ idx, idx < r.progLen.toNat → ∃ w i,
    Memory.read r.prog idx = some w ∧ decode w = .ok i ∧
      i.wellFormed = true ∧ i.staysInside r.progLen.toNat idx = true

/-- No instruction of the program can close a loop (60_exceptions.md R239). -/
def ProgramForward (r : RunInputs) : Prop :=
  ∀ idx w i, idx < r.progLen.toNat → Memory.read r.prog idx = some w → decode w = .ok i →
    i.goesForward idx = true

/-- The inputs `r` with its program replaced by a list of instructions, loaded from index 0. -/
def RunInputs.withInstrs (r : RunInputs) (is : List Instr) : RunInputs :=
  { r with prog := Memory.ofList 0 (is.map encode), progLen := BitVec.ofNat 33 is.length }

/-! ## Endings -/

/-- Endings 4 to 6 of 60_exceptions.md R220: an error to the caller. -/
def Status.isFault : Status → Bool
  | .faultIllegal | .faultIndexPc | .faultIndexMem => true
  | .idle | .running | .doneReturn | .doneRejectBounds | .doneRejectDivzero => false

/-- Endings 1 to 3 of 60_exceptions.md R220: a verdict to the caller. -/
def Status.isVerdict : Status → Bool
  | .doneReturn | .doneRejectBounds | .doneRejectDivzero => true
  | .idle | .running | .faultIllegal | .faultIndexPc | .faultIndexMem => false

/-- A run that does not end in a fault, as far as it has gone. -/
def FaultFree (s : State) : Prop := s.status.isFault = false

/-- The codes of the instructions that can raise `IndexOutOfRange(MEM)` (60_exceptions.md R227). -/
def scratchCodes : List Code := [0x0002, 0x0003, 0x0060, 0x0061]

/-- The outcome ports hold what `STATUS` says they hold (10_state.md R31 to R33, 60_exceptions.md
R227). -/
def PortsAgree (s : State) : Prop :=
  match s.status with
  | .idle | .running => s.outcome = .none
  | .doneReturn => ∃ v, s.outcome = .verdict v
  | .doneRejectBounds | .doneRejectDivzero => s.outcome = .verdict 0
  | .faultIllegal => ∃ code, s.outcome = .fault ⟨.illegal, code, s.pc, 0⟩ ∧
      opcodeRow code = none
  | .faultIndexPc => s.outcome = .fault ⟨.fetchIndex, 0, s.pc, s.pc⟩ ∧
      s.inputs.progLen.toNat ≤ s.pc.toNat
  | .faultIndexMem => ∃ (code : Code) (k : Word),
      s.outcome = .fault ⟨.scratchIndex, code, s.pc, k⟩ ∧ code ∈ scratchCodes ∧
        Config.memWords ≤ k.toNat ∧ k.toNat < 2 ^ 32

/-- The machine's invariant: both spaces (of this run and of the launches to come) are in canonical
form; the program is no longer than the largest; since the first `START` `pc` is at most one past
the largest program with the longest branch added, so that it never wraps (10_state.md R27); and the
outcome ports agree with `STATUS`. -/
structure Inv (s : State) : Prop where
  prog : Memory.wf s.inputs.prog
  storage : Memory.wf s.inputs.storage
  launches : ∀ r ∈ s.launches, Memory.wf r.prog ∧ Memory.wf r.storage
  progLen : s.inputs.progLen.toNat ≤ Config.progLenMax
  pc : s.status ≠ .idle → s.pc.toNat ≤ Config.progLenMax + 255
  ports : PortsAgree s

/-! ## What a run must not depend on -/

/-- The two states differ at most in where the packet lies in its storage and in the bytes outside
`CAPLEN`: every captured byte is the same (20_memory.md R58; 95_test_vectors.md S1, S2). -/
def SameCapture (s s' : State) : Prop :=
  s' = { s with inputs :=
    { s.inputs with storage := s'.inputs.storage, bufBase := s'.inputs.bufBase } } ∧
  ∀ off, off < s.inputs.capLen.toNat → s'.packetByte off = s.packetByte off

/-- The two outcomes are of one kind and, where they are next states, related. -/
def OutcomesRelated (rel : State → State → Prop) (o o' : Result) : Prop :=
  match o, o' with
  | .next t, .next t' => rel t t'
  | .fault f, .fault f' => f = f'
  | .refused r, .refused r' => r = r'
  | _, _ => False

/-- One `execute()` call on an engine that is not running (00_scope.md R5, R6): the launch, and then at
most `fuel` steps. None means that there is no outcome within the bound, never a verdict
(92_eei_decisions.md D19); a refused launch has none either. -/
def execute (fuel : Nat) (before : State) (r : RunInputs) : Option CallerResult :=
  match Sys2Proof.core.run (fuel + 1) { before with launches := [r] } with
  | .next t => t.callerSees
  | .fault _ => none
  | .refused _ => none

end Sys2Proof.Machine
end

