-- ==== Sys2Proof/Certificates/Slice0/Obligations.lean ====
section
/-!
DEFINITION. The statements for the provers. A statement with basis `stated` formalises numbered rules
of spec/; every other one is derived. Values are compared as natural numbers, as the rules write them
(00_scope.md R10); "KeepsWorld", "WritesOnlyA" and the other frames are defined in Safety.lean. A
`decode` clause says which words are the instruction, with the fields it ignores left open.
The numeric codes and the layout of the word are the spec's own decisions D1 and D3 (log entries 10
and 11), that `k` is zero-extended is D2 (log entry 12); each rule restates them in its own words.
-/

namespace Sys2Proof.Machine.Rules

/-! ## The opcode map, copied from the table of 30_encoding.md R93 -/

/-- The 45 legal codes and their mnemonics, in the order of 30_encoding.md R93. -/
def opcodeMap : List (Code × String) := [
  (0x0000, "LD W IMM"), (0x0020, "LD W ABS"), (0x0028, "LD H ABS"), (0x0030, "LD B ABS"),
  (0x0040, "LD W IND"), (0x0048, "LD H IND"), (0x0050, "LD B IND"), (0x0060, "LD W MEM"),
  (0x0080, "LD W LEN"), (0x0001, "LDX W IMM"), (0x0061, "LDX W MEM"), (0x0081, "LDX W LEN"),
  (0x00B1, "LDX B MSH"), (0x0002, "ST"), (0x0003, "STX"), (0x0005, "JMP JA"),
  (0x0015, "JMP JEQ K"), (0x0025, "JMP JGT K"), (0x0035, "JMP JGE K"), (0x0045, "JMP JSET K"),
  (0x001D, "JMP JEQ X"), (0x002D, "JMP JGT X"), (0x003D, "JMP JGE X"), (0x004D, "JMP JSET X"),
  (0x0004, "ALU ADD K"), (0x0014, "ALU SUB K"), (0x0024, "ALU MUL K"), (0x0034, "ALU DIV K"),
  (0x0044, "ALU OR K"), (0x0054, "ALU AND K"), (0x0064, "ALU LSH K"), (0x0074, "ALU RSH K"),
  (0x000C, "ALU ADD X"), (0x001C, "ALU SUB X"), (0x002C, "ALU MUL X"), (0x003C, "ALU DIV X"),
  (0x004C, "ALU OR X"), (0x005C, "ALU AND X"), (0x006C, "ALU LSH X"), (0x007C, "ALU RSH X"),
  (0x0084, "ALU NEG"), (0x0007, "MISC TAX"), (0x0087, "MISC TXA"), (0x0006, "RET K"),
  (0x0016, "RET A")]

/-- Whether the instruction with this `code` uses `jt` and `jf` (30_encoding.md R93, column "uses"). -/
def readsJumpOffsets (code : Code) : Bool :=
  [0x0015, 0x0025, 0x0035, 0x0045, 0x001D, 0x002D, 0x003D, 0x004D].contains code

/-- Whether the instruction with this `code` uses `k` (30_encoding.md R93, column "uses"). -/
def readsImmediate (code : Code) : Bool :=
  [0x0000, 0x0020, 0x0028, 0x0030, 0x0040, 0x0048, 0x0050, 0x0060, 0x0001, 0x0061, 0x00B1,
    0x0002, 0x0003, 0x0005, 0x0015, 0x0025, 0x0035, 0x0045, 0x0004, 0x0014, 0x0024, 0x0034,
    0x0044, 0x0054, 0x0064, 0x0074, 0x0006].contains code

/-! ## The shapes of the instruction rules -/

/-- The words with this `code` are the instruction, whatever stands in the fields it ignores. -/
def Encoded (code : Code) (i : Count → Count → Imm → Instr) : Prop :=
  ∀ jt jf k, decode (makeWord code jt jf k) = .ok (i jt jf k)

/-- A packet read into `A`: inside `CAPLEN` the value of the rule is loaded and the run goes on;
beyond it the run ends with the bounds reject. -/
def LoadsPacketIntoA (i : Instr) (size : Size) (off : State → Nat) : Prop :=
  ∀ s,
    (off s + size.bytes ≤ s.inputs.capLen.toNat →
      ∃ t, exec i s = .next t ∧ t.a.toNat = writtenOutRead s (off s) size ∧
        t.pc = s.pc + 1 ∧ WritesOnlyA s t) ∧
    (s.inputs.capLen.toNat < off s + size.bytes →
      ∃ t, exec i s = .next t ∧ EndsRun s t .doneRejectBounds (.verdict 0))

/-- `A <- value; pc <- pc + 1`, and nothing else, in every state. -/
def ComputesA (i : Instr) (value : State → Nat) : Prop :=
  ∀ s, ∃ t, exec i s = .next t ∧ t.a.toNat = value s ∧ t.pc = s.pc + 1 ∧ WritesOnlyA s t

/-- `X <- value; pc <- pc + 1`, and nothing else, in every state. -/
def ComputesX (i : Instr) (value : State → Nat) : Prop :=
  ∀ s, ∃ t, exec i s = .next t ∧ t.x.toNat = value s ∧ t.pc = s.pc + 1 ∧ WritesOnlyX s t

/-- Division by `divisor`: the quotient into `A`, or the division reject when the divisor is 0. -/
def DividesA (i : Instr) (divisor : State → Nat) : Prop :=
  ∀ s,
    (divisor s ≠ 0 →
      ∃ t, exec i s = .next t ∧ t.a.toNat = s.a.toNat / divisor s ∧ t.pc = s.pc + 1 ∧
        WritesOnlyA s t) ∧
    (divisor s = 0 →
      ∃ t, exec i s = .next t ∧ EndsRun s t .doneRejectDivzero (.verdict 0))

/-- A store of `value` into slot `k`, or the scratch index fault with `code` when `k >= 16`. -/
def StoresSlot (i : Instr) (code : Code) (k : Imm) (value : State → Word) : Prop :=
  ∀ s,
    (∀ slot : Fin 16, slot.val = k.toNat →
      ∃ t, exec i s = .next t ∧ t.slot slot = value s ∧ t.pc = s.pc + 1 ∧
        WritesOnlySlot slot s t) ∧
    (16 ≤ k.toNat →
      ∃ t, exec i s = .next t ∧
        EndsRun s t .faultIndexMem (.fault ⟨.scratchIndex, code, s.pc, k.setWidth 64⟩))

/-- A conditional jump: `pc <- pc + 1 + jt` when the condition holds, else `pc <- pc + 1 + jf`. -/
def BranchesOn (i : Instr) (jt jf : Count) (cond : State → Prop) : Prop :=
  ∀ s, ∃ t, exec i s = .next t ∧ WritesOnlyPc s t ∧
    (cond s → t.pc = s.pc + 1 + jt.setWidth 64) ∧
    (¬ cond s → t.pc = s.pc + 1 + jf.setWidth 64)

end Sys2Proof.Machine.Rules

open Sys2Proof Sys2Proof.Machine Sys2Proof.Machine.Rules

/-! ## Encoding -/

/-- Every instruction, with every value of its operands, is read back from its word (30_encoding.md
R102; the codes and the layout are log entries 10 and 11). -/
def Obligations.DecodeOfEncodeIsIdentity : Prop :=
  ∀ i : Instr, decode (encode i) = .ok i

/-- What a decoded word says in its `code` and in the fields its instruction reads is kept by the
encoder, and nothing else: the fields it ignores come back as 0 (30_encoding.md R86, R102; decision
D16, log entry 21). -/
def Obligations.EncodeOfDecodeZeroesUnusedFields : Prop :=
  ∀ (w : Word) (i : Instr), decode w = .ok i →
    encode i = makeWord (codeField w)
      (if readsJumpOffsets (codeField w) then jtField w else 0)
      (if readsJumpOffsets (codeField w) then jfField w else 0)
      (if readsImmediate (codeField w) then kField w else 0)

/-- Decoding is an exact match of all 16 bits of `code` against the 45 values of the opcode map: a
word with a legal code is the instruction of its row, every other word is illegal, and the 45 codes
are distinct (30_encoding.md R94). -/
def Obligations.DecodingMatchesOpcodeMapExactly : Prop :=
  opcodeMap.length = 45 ∧ (opcodeMap.map Prod.fst).Nodup ∧
    ∀ w : Word,
      (∀ name, (codeField w, name) ∈ opcodeMap →
        ∃ i, decode w = .ok i ∧ i.mnemonic = name ∧ i.code = codeField w) ∧
      (codeField w ∉ opcodeMap.map Prod.fst → decode w = .error (.illegalCode (codeField w)))

/-- The decoder by sub-fields of 30_encoding.md R95 answers as the exact match does, for every code and
all operand fields. -/
def Obligations.SubfieldDecoderAgrees : Prop :=
  ∀ (code : Code) (jt jf : Count) (k : Imm),
    decodeSubfields code jt jf k = decodeFields code jt jf k

/-- Words written out in the spec's examples decode to the instruction they stand for
(95_test_vectors.md E1 to E7). -/
def Obligations.SpecExampleWordsDecode : Prop :=
  decode 0x002800000000000C = .ok (.ldHAbs 12) ∧
  decode 0x0015000300000800 = .ok (.jmpJeqK 0 3 0x800) ∧
  decode 0x00250AFF80000000 = .ok (.jmpJgtK 10 255 0x80000000) ∧
  decode 0x0000000000000000 = .ok (.ldWImm 0) ∧
  decode 0x0007FFFFFFFFFFFF = .ok .miscTax ∧
  decode 0x00B100000000000E = .ok (.ldxBMsh 14) ∧
  decode 0x0002000000000005 = .ok (.st 5) ∧
  decode 0x0084000000000000 = .ok .aluNeg ∧
  decode 0x0016000000000000 = .ok .retA ∧
  decode 0xFFFF000000000000 = .error (.illegalCode 0xFFFF)

/-! ## The step -/

/-- A step of a run in progress whose word decodes to an instruction runs exactly that instruction
(00_scope.md R16). -/
def Obligations.StepRunsDecodedInstruction : Prop :=
  ∀ (s : State) (w : Word) (i : Instr), s.status = .running →
    s.pc.toNat < s.inputs.progLen.toNat → Memory.read s.inputs.prog s.pc.toNat = some w →
    decode w = .ok i → step s = exec i s

/-- A word loaded where the step fetches is what the next step runs. The load from outside,
`State.withFetchWord`, is the model's choice (log entry 5). -/
def Obligations.LoadedWordIsRunNext : Prop :=
  ∀ (s : State) (w : Nat) (i : Instr), decodeTableWord 64 w = some i →
    step (s.withFetchWord 64 w) = exec i (s.withFetchWord 64 w)

/-- Fetching a word whose code is none of the 45 raises the illegal-instruction fault with that code
and the `pc` and writes nothing else (60_exceptions.md R224). That a step of the halted engine, with no
launch to come, answers the same state is the model's choice (log entry 4, over the list of launches of
log entry 3): the spec says the engine takes no further step and gives none. -/
def Obligations.IllegalCodeFaults : Prop :=
  ∀ (s : State) (w : Word), s.status = .running → s.pc.toNat < s.inputs.progLen.toNat →
    Memory.read s.inputs.prog s.pc.toNat = some w → codeField w ∉ opcodeMap.map Prod.fst →
    ∃ t, step s = .next t ∧
      EndsRun s t .faultIllegal (.fault ⟨.illegal, codeField w, s.pc, 0⟩) ∧
      t.callerSees = some (.illegalInstruction (codeField w) s.pc) ∧
      (s.launches = [] → step t = .next t)

/-- A step that begins with `pc >= PROGLEN` raises the fetch index fault, whatever the program space
holds there (60_exceptions.md R226, R229; that `PROGLEN = 0` does so too is decision D14). -/
def Obligations.FetchOutsideProgramFaults : Prop :=
  ∀ s : State, s.status = .running → s.inputs.progLen.toNat ≤ s.pc.toNat →
    ∃ t, step s = .next t ∧ EndsRun s t .faultIndexPc (.fault ⟨.fetchIndex, 0, s.pc, s.pc⟩) ∧
      t.callerSees = some (.indexOutOfRange s.pc s.pc)

/-- No instruction stops the model, and a run whose program is loaded always has a next step
(70_reset_and_hazards.md R265, an inference of the spec's own). That an ending is a next state too is
DEDUCED (log entry 1); the premise is R262 duty 1, and without it the model stops by its own choice (log
entry 7). -/
def Obligations.RunningEngineIsNeverStuck : Prop :=
  (∀ (i : Instr) (s : State), ∃ t, exec i s = .next t) ∧
    ∀ s : State, s.status = .running → ProgramLoaded s.inputs → ∃ t, step s = .next t

/-- An ending writes the outcome ports and nothing else (60_exceptions.md R230, an inference of the spec's
own; that an ending is a next state is DEDUCED, log entry 1), and after it the engine takes no further
step until a launch (R232, also an inference of the spec's own; R238). That a step of the halted engine,
with no launch to come, answers the same state is the model's choice (log entry 4, over the list of
launches of log entry 3). -/
def Obligations.EndingWritesOnlyOutcomePorts : Prop :=
  ∀ s t : State, s.status = .running → step s = .next t → t.status ≠ .running →
    EndsRun s t t.status t.outcome ∧ (t.status.isFault = true ∨ t.status.isVerdict = true) ∧
      (t.launches = [] → ∀ n, Sys2Proof.core.run n t = .next t)

/-- A step that does not end the run leaves the outcome ports alone and goes on at an index that the
instruction alone determines: the next one, a branch target, or the target of `JA` (42_jump.md R162;
that `pc` cannot wrap is 10_state.md R27, an inference of the spec's own). -/
def Obligations.SuccessorsAreKnownFromTheInstruction : Prop :=
  ∀ (s t : State) (w : Word) (i : Instr), s.status = .running →
    s.pc.toNat < s.inputs.progLen.toNat → Memory.read s.inputs.prog s.pc.toNat = some w →
    decode w = .ok i → step s = .next t → t.status = .running →
    KeepsPorts s t ∧ t.pc.toNat ∈ i.successors s.pc.toNat

/-- During a run no step changes a run input or any byte of the packet (20_memory.md R52, R69, R72). That the
inputs stand in the state is the model's choice (log entry 2), and so are the two further fields the
statement says are kept, the list of launches to come (log entry 3) and the counter of the free bytes
(log entry 6): they are the model's own, no rule names them. -/
def Obligations.RunInputsAreConstant : Prop :=
  ∀ s t : State, s.status = .running → step s = .next t → KeepsWorld s t

/-! ## Reset, START and the idle engine -/

/-- After reset nothing is presented to the engine: no program, no packet, byte order BIG (the model's
choice, log entry 5); so its first step is the fetch index fault at index 0, whose verdict port has no
value (60_exceptions.md R226; for `PROGLEN = 0` decision D14). -/
def Obligations.ResetPresentsNothing : Prop :=
  State.reset.inputs.progLen = 0 ∧ State.reset.inputs.capLen = 0 ∧
    State.reset.inputs.wireLen = 0 ∧ State.reset.inputs.byteOrder = .big ∧
    State.reset.launches = [] ∧
    ∃ t, step State.reset = .next t ∧ t.callerSees = some (.indexOutOfRange 0 0)

/-- At power-on and after a hardware reset signal the engine is idle and shows no outcome (10_state.md R36,
70_reset_and_hazards.md R261; decision D17; State.powerOn and State.hardwareReset are the model's choices,
log entries 25 and 26). That an engine which is not running does nothing until a launch is 60_exceptions.md
R238; that its step then answers the same state is the model's choice (log entry 4, over the list of
launches of log entry 3). -/
def Obligations.IdleEngineDoesNothing : Prop :=
  (∀ launches, (State.powerOn launches).status = .idle ∧
    (State.powerOn launches).callerSees = none) ∧
  (∀ s : State, s.hardwareReset.status = .idle ∧ s.hardwareReset.callerSees = none) ∧
  ∀ s : State, s.status ≠ .running → s.launches = [] → step s = .next s

/-- `START` on an engine that is not running, whatever it holds: `A`, `X`, every scratch slot and `pc`
become 0, `STATUS` becomes RUNNING and the outcome ports lose their values; the state after reset has
these values too (70_reset_and_hazards.md R260). That `START` is the very next step of an engine whose list
of launches is not empty is the model's choice (log entry 3); the bound on `PROGLEN` goes with the
refusal of longer launches (R262 duty 3, decision D14, log entry 8). -/
def Obligations.StartInitialisesEverything : Prop :=
  (∀ (s : State) (r : RunInputs) (rest : List RunInputs), s.status ≠ .running →
    s.launches = r :: rest → r.progLen.toNat ≤ 2 ^ 32 →
    ∃ t, step s = .next t ∧ t.a = 0 ∧ t.x = 0 ∧ (∀ i, t.slot i = 0) ∧ t.pc = 0 ∧
      t.status = .running ∧ t.outcome = .none ∧ t.callerSees = none) ∧
  State.reset.a = 0 ∧ State.reset.x = 0 ∧ (∀ i, State.reset.slot i = 0) ∧ State.reset.pc = 0 ∧
    State.reset.status = .running ∧ State.reset.outcome = .none ∧ State.reset.callerSees = none

/-- The run that `START` begins has the inputs the host presented, every packet byte the host presented
reads as presented, and the launch is taken off the model's list (10_state.md R29, R30; the byte's
position in the storage is 20_memory.md R58, decision D11, log entry 19). That the position is the exact
sum `BUFBASE + off`, also from 2^64 on, is DEDUCED (log entry 18). That the launches are a list and that
the first is taken in the very next step is the model's choice (log entry 3); the bound on `PROGLEN` goes
with the refusal of longer launches (log entry 8). -/
def Obligations.StartTakesTheNextLaunch : Prop :=
  ∀ (s : State) (r : RunInputs) (rest : List RunInputs), s.status ≠ .running →
    s.launches = r :: rest → r.progLen.toNat ≤ 2 ^ 32 →
    ∃ t, step s = .next t ∧ t.inputs = r ∧ t.launches = rest ∧
      ∀ off v, Memory.read r.storage (r.bufBase.toNat + off) = some v → t.packetByte off = v

/-- A launch with more than 2^32 instructions is refused (70_reset_and_hazards.md R262 duty 3, decision
D14). That the launch is the first of a list that the very next step reads is the model's choice (log
entry 3), and so is the name of the refusal (log entry 8). -/
def Obligations.OverlongLaunchIsRefused : Prop :=
  ∀ (s : State) (r : RunInputs) (rest : List RunInputs), s.status ≠ .running →
    s.launches = r :: rest → 2 ^ 32 < r.progLen.toNat →
    step s = .refused (.launchTooLong r.progLen.toNat)

/-! ## Loads -/

/-- `LD W ABS`, `LD H ABS`, `LD B ABS` (40_load.md R112, R113, R114). -/
def Obligations.AbsoluteLoadsReadPacket : Prop :=
  Encoded 0x0020 (fun _ _ k => .ldWAbs k) ∧ Encoded 0x0028 (fun _ _ k => .ldHAbs k) ∧
  Encoded 0x0030 (fun _ _ k => .ldBAbs k) ∧
  ∀ k : Imm,
    LoadsPacketIntoA (.ldWAbs k) .w (fun _ => k.toNat) ∧
    LoadsPacketIntoA (.ldHAbs k) .h (fun _ => k.toNat) ∧
    LoadsPacketIntoA (.ldBAbs k) .b (fun _ => k.toNat)

/-- `LD W IND`, `LD H IND`, `LD B IND`, whose offset is the exact sum `X + k` (40_load.md R115, R116,
R117). -/
def Obligations.IndexedLoadsReadPacket : Prop :=
  Encoded 0x0040 (fun _ _ k => .ldWInd k) ∧ Encoded 0x0048 (fun _ _ k => .ldHInd k) ∧
  Encoded 0x0050 (fun _ _ k => .ldBInd k) ∧
  ∀ k : Imm,
    LoadsPacketIntoA (.ldWInd k) .w (fun s => s.x.toNat + k.toNat) ∧
    LoadsPacketIntoA (.ldHInd k) .h (fun s => s.x.toNat + k.toNat) ∧
    LoadsPacketIntoA (.ldBInd k) .b (fun s => s.x.toNat + k.toNat)

/-- `LDX B MSH`: four times the low nibble of the byte at offset `k` into `X` (40_load.md R124; the
offset is decision D23, log entry 24). -/
def Obligations.HeaderLengthLoad : Prop :=
  Encoded 0x00B1 (fun _ _ k => .ldxBMsh k) ∧
  ∀ (k : Imm) (s : State),
    (k.toNat + 1 ≤ s.inputs.capLen.toNat →
      ∃ t, exec (.ldxBMsh k) s = .next t ∧
        t.x.toNat = (s.packetByte k.toNat).toNat % 16 * 4 ∧ t.pc = s.pc + 1 ∧ WritesOnlyX s t) ∧
    (s.inputs.capLen.toNat < k.toNat + 1 →
      ∃ t, exec (.ldxBMsh k) s = .next t ∧ EndsRun s t .doneRejectBounds (.verdict 0))

/-- `LD W LEN` and `LDX W LEN` load the wire length, with no bounds check, and no other instruction uses
it: with another wire length every other instruction does the same (40_load.md R118, R123). -/
def Obligations.LengthLoads : Prop :=
  Encoded 0x0080 (fun _ _ _ => .ldWLen) ∧ Encoded 0x0081 (fun _ _ _ => .ldxWLen) ∧
  ComputesA .ldWLen (fun s => s.inputs.wireLen.toNat) ∧
  ComputesX .ldxWLen (fun s => s.inputs.wireLen.toNat) ∧
  ∀ (i : Instr) (s : State) (len : BitVec 32), i ≠ .ldWLen → i ≠ .ldxWLen →
    OutcomesRelated (fun t t' => t' = { t with inputs := { t.inputs with wireLen := len } })
      (exec i s) (exec i { s with inputs := { s.inputs with wireLen := len } })

/-- `LD W IMM` and `LDX W IMM` load `k` (40_load.md R119, R121, where the meaning of the mode is marked
as general knowledge; log entry 24). -/
def Obligations.ImmediateLoads : Prop :=
  Encoded 0x0000 (fun _ _ k => .ldWImm k) ∧ Encoded 0x0001 (fun _ _ k => .ldxWImm k) ∧
  ∀ k : Imm, ComputesA (.ldWImm k) (fun _ => k.toNat) ∧ ComputesX (.ldxWImm k) (fun _ => k.toNat)

/-- `LD W MEM` and `LDX W MEM` load the whole slot `k`, and fault when `k >= 16` (40_load.md R120,
R122; the fault is decision D13, log entry 20). -/
def Obligations.ScratchLoads : Prop :=
  Encoded 0x0060 (fun _ _ k => .ldWMem k) ∧ Encoded 0x0061 (fun _ _ k => .ldxWMem k) ∧
  ∀ (k : Imm) (s : State),
    (∀ slot : Fin 16, slot.val = k.toNat →
      (∃ t, exec (.ldWMem k) s = .next t ∧ t.a = s.slot slot ∧ t.pc = s.pc + 1 ∧
        WritesOnlyA s t) ∧
      ∃ t, exec (.ldxWMem k) s = .next t ∧ t.x = s.slot slot ∧ t.pc = s.pc + 1 ∧
        WritesOnlyX s t) ∧
    (16 ≤ k.toNat →
      (∃ t, exec (.ldWMem k) s = .next t ∧
        EndsRun s t .faultIndexMem (.fault ⟨.scratchIndex, 0x0060, s.pc, k.setWidth 64⟩)) ∧
      ∃ t, exec (.ldxWMem k) s = .next t ∧
        EndsRun s t .faultIndexMem (.fault ⟨.scratchIndex, 0x0061, s.pc, k.setWidth 64⟩))

/-- A value loaded from the packet is never sign-extended: it is below 2^8, 2^16 or 2^32 by its size,
and `MSH` gives a multiple of 4 up to 60 (20_memory.md R59, 40_load.md R124). -/
def Obligations.PacketLoadsZeroExtend : Prop :=
  ∀ (k : Imm) (s t : State), t.status = .running → s.status = .running →
    (exec (.ldWAbs k) s = .next t ∨ exec (.ldWInd k) s = .next t → t.a.toNat < 2 ^ 32) ∧
    (exec (.ldHAbs k) s = .next t ∨ exec (.ldHInd k) s = .next t → t.a.toNat < 2 ^ 16) ∧
    (exec (.ldBAbs k) s = .next t ∨ exec (.ldBInd k) s = .next t → t.a.toNat < 2 ^ 8) ∧
    (exec (.ldxBMsh k) s = .next t → t.x.toNat ≤ 60 ∧ t.x.toNat % 4 = 0)

/-- With `X` at 2^32 or above every indexed load rejects: the sum `X + k` never wraps to a small offset
(20_memory.md R62; exact arithmetic is decision D9, log entry 18). -/
def Obligations.HugeIndexNeverWraps : Prop :=
  ∀ (k : Imm) (s : State), 2 ^ 32 ≤ s.x.toNat →
    (∃ t, exec (.ldWInd k) s = .next t ∧ EndsRun s t .doneRejectBounds (.verdict 0)) ∧
    (∃ t, exec (.ldHInd k) s = .next t ∧ EndsRun s t .doneRejectBounds (.verdict 0)) ∧
    (∃ t, exec (.ldBInd k) s = .next t ∧ EndsRun s t .doneRejectBounds (.verdict 0))

/-- A wide read is the byte reads combined in the run's byte order (20_memory.md R54, R55, R56; the
little-endian order is decision D11, log entry 19). -/
def Obligations.MemReadCombinesBytes : Prop :=
  ∀ (s : State) (off : Nat) (size : Size), s.memRead off size.bytes = writtenOutRead s off size

/-! ## Stores -/

/-- `ST` and `STX`: the whole register into slot `k`, every other slot kept; `k >= 16` faults and writes
no slot (41_store.md R141, R142). -/
def Obligations.StoresWriteOneSlot : Prop :=
  Encoded 0x0002 (fun _ _ k => .st k) ∧ Encoded 0x0003 (fun _ _ k => .stx k) ∧
  ∀ k : Imm,
    StoresSlot (.st k) 0x0002 k (fun s => s.a) ∧ StoresSlot (.stx k) 0x0003 k (fun s => s.x)

/-- What a store put into a slot, a load of the same slot returns, all 64 bits, whichever of the two
registers stores and whichever loads (20_memory.md R59 and R66, where the exactness is marked as an
inference of the spec's own). -/
def Obligations.StoreThenLoadReturnsValue : Prop :=
  ∀ (k : Imm) (s : State), k.toNat < 16 →
    (∃ t u, exec (.st k) s = .next t ∧ exec (.ldWMem k) t = .next u ∧ u.a = s.a) ∧
    (∃ t u, exec (.st k) s = .next t ∧ exec (.ldxWMem k) t = .next u ∧ u.x = s.a) ∧
    (∃ t u, exec (.stx k) s = .next t ∧ exec (.ldWMem k) t = .next u ∧ u.a = s.x) ∧
    (∃ t u, exec (.stx k) s = .next t ∧ exec (.ldxWMem k) t = .next u ∧ u.x = s.x)

/-! ## Jumps -/

/-- `JMP JA`: `k` is the new `pc`, an absolute index, and nothing else changes (42_jump.md R153; that
no increment follows is decision D5, log entry 14). -/
def Obligations.JumpAlwaysIsAbsolute : Prop :=
  Encoded 0x0005 (fun _ _ k => .jmpJa k) ∧
  ∀ (k : Imm) (s : State), ∃ t, exec (.jmpJa k) s = .next t ∧ t.pc.toNat = k.toNat ∧
    WritesOnlyPc s t

/-- `JEQ`, `JGT`, `JGE` against `k`: unsigned 64-bit comparisons (42_jump.md R154, R155, R156). -/
def Obligations.ComparingJumpsImmediate : Prop :=
  Encoded 0x0015 (fun jt jf k => .jmpJeqK jt jf k) ∧
  Encoded 0x0025 (fun jt jf k => .jmpJgtK jt jf k) ∧
  Encoded 0x0035 (fun jt jf k => .jmpJgeK jt jf k) ∧
  ∀ (jt jf : Count) (k : Imm),
    BranchesOn (.jmpJeqK jt jf k) jt jf (fun s => s.a.toNat = k.toNat) ∧
    BranchesOn (.jmpJgtK jt jf k) jt jf (fun s => s.a.toNat > k.toNat) ∧
    BranchesOn (.jmpJgeK jt jf k) jt jf (fun s => s.a.toNat ≥ k.toNat)

/-- `JEQ`, `JGT`, `JGE` against `X`: unsigned 64-bit comparisons (42_jump.md R158, R159, R160). -/
def Obligations.ComparingJumpsIndex : Prop :=
  Encoded 0x001D (fun jt jf _ => .jmpJeqX jt jf) ∧
  Encoded 0x002D (fun jt jf _ => .jmpJgtX jt jf) ∧
  Encoded 0x003D (fun jt jf _ => .jmpJgeX jt jf) ∧
  ∀ jt jf : Count,
    BranchesOn (.jmpJeqX jt jf) jt jf (fun s => s.a.toNat = s.x.toNat) ∧
    BranchesOn (.jmpJgtX jt jf) jt jf (fun s => s.a.toNat > s.x.toNat) ∧
    BranchesOn (.jmpJgeX jt jf) jt jf (fun s => s.a.toNat ≥ s.x.toNat)

/-- `JSET` against `k` and against `X`: some bit set in both (42_jump.md R157, R161; the meaning is
marked as general knowledge, log entry 24). -/
def Obligations.BitTestJumps : Prop :=
  Encoded 0x0045 (fun jt jf k => .jmpJsetK jt jf k) ∧
  Encoded 0x004D (fun jt jf _ => .jmpJsetX jt jf) ∧
  ∀ (jt jf : Count) (k : Imm),
    BranchesOn (.jmpJsetK jt jf k) jt jf (fun s => s.a.toNat &&& k.toNat ≠ 0) ∧
    BranchesOn (.jmpJsetX jt jf) jt jf (fun s => s.a.toNat &&& s.x.toNat ≠ 0)

/-! ## Arithmetic and logic -/

/-- `ADD`, `SUB`, `MUL` with `k`, modulo 2^64 (43_alu.md R175, R176, R177). -/
def Obligations.ArithmeticImmediate : Prop :=
  Encoded 0x0004 (fun _ _ k => .aluAddK k) ∧ Encoded 0x0014 (fun _ _ k => .aluSubK k) ∧
  Encoded 0x0024 (fun _ _ k => .aluMulK k) ∧
  ∀ k : Imm,
    ComputesA (.aluAddK k) (fun s => (s.a.toNat + k.toNat) % 2 ^ 64) ∧
    ComputesA (.aluSubK k) (fun s => (s.a.toNat + 2 ^ 64 - k.toNat) % 2 ^ 64) ∧
    ComputesA (.aluMulK k) (fun s => s.a.toNat * k.toNat % 2 ^ 64)

/-- `ADD`, `SUB`, `MUL` with `X`, modulo 2^64 (43_alu.md R183, R184, R185). -/
def Obligations.ArithmeticIndex : Prop :=
  Encoded 0x000C (fun _ _ _ => .aluAddX) ∧ Encoded 0x001C (fun _ _ _ => .aluSubX) ∧
  Encoded 0x002C (fun _ _ _ => .aluMulX) ∧
  ComputesA .aluAddX (fun s => (s.a.toNat + s.x.toNat) % 2 ^ 64) ∧
  ComputesA .aluSubX (fun s => (s.a.toNat + 2 ^ 64 - s.x.toNat) % 2 ^ 64) ∧
  ComputesA .aluMulX (fun s => s.a.toNat * s.x.toNat % 2 ^ 64)

/-- `DIV` by `k` and by `X`: the unsigned quotient; a zero divisor ends the run with the division
reject and does not write `A` (43_alu.md R178, R186). -/
def Obligations.DivisionOrReject : Prop :=
  Encoded 0x0034 (fun _ _ k => .aluDivK k) ∧ Encoded 0x003C (fun _ _ _ => .aluDivX) ∧
  (∀ k : Imm, DividesA (.aluDivK k) (fun _ => k.toNat)) ∧ DividesA .aluDivX (fun s => s.x.toNat)

/-- `OR` and `AND` with `k` and with `X` (43_alu.md R179, R180, R187, R188). -/
def Obligations.BitwiseOperations : Prop :=
  Encoded 0x0044 (fun _ _ k => .aluOrK k) ∧ Encoded 0x0054 (fun _ _ k => .aluAndK k) ∧
  Encoded 0x004C (fun _ _ _ => .aluOrX) ∧ Encoded 0x005C (fun _ _ _ => .aluAndX) ∧
  (∀ k : Imm,
    ComputesA (.aluOrK k) (fun s => s.a.toNat ||| k.toNat) ∧
    ComputesA (.aluAndK k) (fun s => s.a.toNat &&& k.toNat)) ∧
  ComputesA .aluOrX (fun s => s.a.toNat ||| s.x.toNat) ∧
  ComputesA .aluAndX (fun s => s.a.toNat &&& s.x.toNat)

/-- `LSH` and `RSH` with `k` and with `X`: the count modulo 64, zeros shifted in (43_alu.md R181, R182,
R189, R190; counts of 64 and more are decision D8, log entry 16). -/
def Obligations.Shifts : Prop :=
  Encoded 0x0064 (fun _ _ k => .aluLshK k) ∧ Encoded 0x0074 (fun _ _ k => .aluRshK k) ∧
  Encoded 0x006C (fun _ _ _ => .aluLshX) ∧ Encoded 0x007C (fun _ _ _ => .aluRshX) ∧
  (∀ k : Imm,
    ComputesA (.aluLshK k) (fun s => s.a.toNat * 2 ^ (k.toNat % 64) % 2 ^ 64) ∧
    ComputesA (.aluRshK k) (fun s => s.a.toNat / 2 ^ (k.toNat % 64))) ∧
  ComputesA .aluLshX (fun s => s.a.toNat * 2 ^ (s.x.toNat % 64) % 2 ^ 64) ∧
  ComputesA .aluRshX (fun s => s.a.toNat / 2 ^ (s.x.toNat % 64))

/-- `NEG`: two's complement negation (43_alu.md R191). -/
def Obligations.Negation : Prop :=
  Encoded 0x0084 (fun _ _ _ => .aluNeg) ∧
  ComputesA .aluNeg (fun s => (2 ^ 64 - s.a.toNat) % 2 ^ 64)

/-! ## Register transfers and returns -/

/-- `TAX` copies `A` into `X`, `TXA` copies `X` into `A`, all 64 bits (44_misc.md R201, R202). -/
def Obligations.RegisterTransfers : Prop :=
  Encoded 0x0007 (fun _ _ _ => .miscTax) ∧ Encoded 0x0087 (fun _ _ _ => .miscTxa) ∧
  ComputesX .miscTax (fun s => s.a.toNat) ∧ ComputesA .miscTxa (fun s => s.x.toNat)

/-- `RET K` and `RET A` end the run with verdict `k`, zero-extended, or all 64 bits of `A`, and write
nothing but the outcome ports; to the caller `RET K` with `k = 0` and the two rejects are the same
(45_return.md R211, R212). -/
def Obligations.ReturnsDeliverVerdict : Prop :=
  Encoded 0x0006 (fun _ _ k => .retK k) ∧ Encoded 0x0016 (fun _ _ _ => .retA) ∧
  (∀ s : State, ∃ t, exec (.retK 0) s = .next t ∧ t.callerSees = s.rejectBounds.callerSees ∧
    t.callerSees = s.rejectDivZero.callerSees) ∧
  ∀ s : State,
    (∀ k : Imm, ∃ t, exec (.retK k) s = .next t ∧
      EndsRun s t .doneReturn (.verdict (BitVec.ofNat 64 k.toNat)) ∧
      t.callerSees = some (.verdict (BitVec.ofNat 64 k.toNat))) ∧
    ∃ t, exec .retA s = .next t ∧ EndsRun s t .doneReturn (.verdict s.a) ∧
      t.callerSees = some (.verdict s.a)

/-! ## The whole machine -/

/-- Every step keeps the machine's invariant: canonical spaces, a `pc` that cannot wrap, and outcome ports
that hold what `STATUS` says (10_state.md R27, R31 to R33; 60_exceptions.md R227, decision D17). The
canonical form is the model's choice (log entry 6), and so are the inputs and the launches in the state
(log entries 2 and 3); that the ports are one sum type is DEDUCED (log entry 9). -/
def Obligations.StepKeepsInvariant : Prop :=
  ∀ s t : State, Inv s → step s = .next t → Inv t

/-- The state after reset has the invariant, and so has the engine at power-on when the launches it will be
given are in canonical form (70_reset_and_hazards.md R260, R261; 10_state.md R36). The model's choices it
rests on: the inputs and the launches in the state (log entries 2 and 3), that nothing is presented at
reset (log entry 5), the canonical form of the two spaces (log entry 6) and the power-on state with its
free values (log entry 25); that the ports are one sum type is DEDUCED (log entry 9). -/
def Obligations.InvariantHoldsAtReset : Prop :=
  Inv State.reset ∧
    ∀ launches, (∀ r ∈ launches, Memory.wf r.prog ∧ Memory.wf r.storage) →
      Inv (State.powerOn launches)

/-- The caller gets a verdict exactly after endings 1 to 3 and an error exactly after endings 4 to 6: a
fault never reads as the verdict 0 (10_state.md R31, R32; 60_exceptions.md R231). That the ports are one
sum type is DEDUCED (log entry 9); the premise is the model's invariant (StepKeepsInvariant), with the
choices named there. -/
def Obligations.FaultIsNeverAVerdict : Prop :=
  ∀ s : State, Inv s →
    ((∃ v, s.callerSees = some (.verdict v)) ↔ s.status.isVerdict = true) ∧
    ((∃ r, s.callerSees = some r ∧ ∀ v, r ≠ .verdict v) ↔ s.status.isFault = true) ∧
    (s.callerSees = none ↔ s.status = .idle ∨ s.status = .running)

/-- What an instruction does not write according to the access table it leaves as it was (10_state.md
R35, an inference of the spec's own). The frame also keeps the model's own fields, the list of launches
(log entry 3) and the counter of the free bytes (log entry 6), which are the model's choices. -/
def Obligations.AccessTableWrites : Prop :=
  ∀ (i : Instr) (s t : State), exec i s = .next t →
    (.a ∉ writeColumns i → t.a = s.a) ∧ (.x ∉ writeColumns i → t.x = s.x) ∧
    (.slots ∉ writeColumns i → KeepsSlots s t) ∧ KeepsWorld s t

/-- What an instruction does is determined by the columns the access table says it reads: from two
states that agree in them and in `pc` it ends alike, goes on at the same `pc`, and what it writes is
the same (10_state.md R35, an inference of the spec's own). -/
def Obligations.AccessTableReads : Prop :=
  ∀ (i : Instr) (s s' t t' : State), exec i s = .next t → exec i s' = .next t' →
    s.pc = s'.pc → s.status = .running → s'.status = .running → s.outcome = s'.outcome →
    (∀ c ∈ readColumns i, AgreeIn s s' c) →
    t.pc = t'.pc ∧ t.status = t'.status ∧ t.outcome = t'.outcome ∧
    (t.a = t'.a ∨ t.a = s.a ∧ t'.a = s'.a) ∧ (t.x = t'.x ∨ t.x = s.x ∧ t'.x = s'.x) ∧
    ∀ j, t.slot j = t'.slot j ∨ t.slot j = s.slot j ∧ t'.slot j = s'.slot j

/-- A well-formed list of instructions, encoded and loaded from index 0, is a sound program
(70_reset_and_hazards.md R263, whose checks are the spec's decision D22). That the program stands in the
run inputs as a list of indexed words is the model's choice (log entries 2 and 6). -/
def Obligations.WellFormedInstrsAreSoundProgram : Prop :=
  ∀ (is : List Instr) (r : RunInputs), is.length ≤ 2 ^ 32 → programWellFormed is = true →
    ProgramSound (r.withInstrs is)

/-- A run of a sound program never faults: however long it runs, the model answers a next state and its
`STATUS` is none of 5, 6 and 7 (70_reset_and_hazards.md R263). Steps after the run has ended answer the
same state, which is the model's choice (log entry 4, over the list of launches of log entry 3). -/
def Obligations.SoundProgramNeverFaults : Prop :=
  ∀ (s : State), s.status = .running → s.pc.toNat < s.inputs.progLen.toNat →
    ProgramSound s.inputs → s.launches = [] →
    ∀ n, ∃ t, Sys2Proof.core.run n s = .next t ∧ FaultFree t

/-- In a program that no `JA` can turn into a loop, every step that does not end the run increases `pc`
(60_exceptions.md R239, an inference of the spec's own). -/
def Obligations.ForwardStepIncreasesPc : Prop :=
  ∀ s t : State, s.status = .running → ProgramForward s.inputs → step s = .next t →
    t.status = .running → s.pc.toNat < t.pc.toNat

/-- A run of such a program ends within `PROGLEN + 1` steps (60_exceptions.md R239, an inference of the
spec's own; the premise that the program is loaded is R262 duty 1, log entry 7). Steps after the run has
ended answer the same state, which is the model's choice (log entry 4, over the list of launches of log
entry 3). -/
def Obligations.ForwardProgramEnds : Prop :=
  ∀ s : State, s.status = .running → s.pc = 0 → ProgramLoaded s.inputs → ProgramForward s.inputs →
    s.launches = [] →
    ∃ t, Sys2Proof.core.run (s.inputs.progLen.toNat + 1) s = .next t ∧ t.status ≠ .running ∧
      t.callerSees ≠ none

/-- A `JA` to its own index runs for ever: no number of steps gives an outcome (42_jump.md R153,
60_exceptions.md R239). -/
def Obligations.SelfJumpNeverEnds : Prop :=
  ∀ (s : State) (jt jf : Count) (k : Imm), s.status = .running → s.pc.toNat = k.toNat →
    k.toNat < s.inputs.progLen.toNat →
    Memory.read s.inputs.prog k.toNat = some (makeWord 0x0005 jt jf k) →
    ∀ n, Sys2Proof.core.run n s = .next s

/-- Neither the bytes beyond `CAPLEN` nor the place of the packet in its storage make a difference: two
runs with the same captured bytes go on alike, step for step (20_memory.md R58, R62; 95_test_vectors.md
S1, S2; `BUFBASE` is decision D11, log entry 19). That a byte's position is the exact sum `BUFBASE + off`
is DEDUCED (log entry 18). The steps of an engine that is not running are the model's choice (log entries
3 and 4), and so is the free byte where the host presented none (log entry 6). -/
def Obligations.OnlyCapturedBytesMatter : Prop :=
  ∀ (s s' : State) (n : Nat), SameCapture s s' →
    OutcomesRelated SameCapture (Sys2Proof.core.run n s) (Sys2Proof.core.run n s')

/-- A call of `execute` is a function of its inputs: whatever the engine held before `START`, the outcome is
the same, provided the packet is presented (00_scope.md R6, 70_reset_and_hazards.md R260; the premise is
R262 duty 4). That a byte not presented is a free value is the model's choice (log entry 6), and so is
that the call is a launch on the engine's list and that a halted engine's steps answer the same state
(log entries 3 and 4); that a byte's position is the exact sum `BUFBASE + off` is DEDUCED (log entry 18). -/
def Obligations.RunsShareNothing : Prop :=
  ∀ (fuel : Nat) (before before' : State) (r : RunInputs), PacketPresented r →
    before.status ≠ .running → before'.status ≠ .running →
    execute fuel before r = execute fuel before' r

/-- Engines do not interfere: after any schedule, each engine is where its own steps alone would have taken
it (20_memory.md R71, 60_exceptions.md R237). That the engines are a list of states, each with a copy of
the shared inputs, of which a schedule steps one at a time is the model's choice (log entry 27). -/
def Obligations.EnginesRunIndependently : Prop :=
  ∀ (schedule : List Nat) (es es' : Engines), runSchedule schedule es = .next es' →
    es'.length = es.length ∧
    ∀ (n : Nat) (s : State), es[n]? = some s →
      ∃ t, es'[n]? = some t ∧ Sys2Proof.core.run (schedule.count n) s = .next t
end

