-- ==== Sys2Proof/Laws/Decode.lean ====
section
/-!
SUPPORT. The fields of a word made of fields, and a word remade from its fields.
-/

namespace Sys2Proof

variable (code : Code) (jt jf : Count) (k : Imm)

@[simp] theorem codeField_makeWord : codeField (makeWord code jt jf k) = code := by
  apply BitVec.eq_of_getLsbD_eq
  intro i hi
  simp only [codeField, makeWord, BitVec.getLsbD_extractLsb', BitVec.getLsbD_append]
  simp [hi, show ¬ 48 + i < 32 by omega, show ¬ 48 + i - 32 < 8 by omega,
    show ¬ 48 + i - 32 - 8 < 8 by omega, show 48 + i - 32 - 8 - 8 = i by omega]

@[simp] theorem jtField_makeWord : jtField (makeWord code jt jf k) = jt := by
  apply BitVec.eq_of_getLsbD_eq
  intro i hi
  simp only [jtField, makeWord, BitVec.getLsbD_extractLsb', BitVec.getLsbD_append]
  simp [hi, show ¬ 40 + i < 32 by omega, show ¬ 40 + i - 32 < 8 by omega,
    show 40 + i - 32 - 8 = i by omega]

@[simp] theorem jfField_makeWord : jfField (makeWord code jt jf k) = jf := by
  apply BitVec.eq_of_getLsbD_eq
  intro i hi
  simp only [jfField, makeWord, BitVec.getLsbD_extractLsb', BitVec.getLsbD_append]
  simp [hi, show ¬ 32 + i < 32 by omega, show 32 + i - 32 = i by omega]

@[simp] theorem kField_makeWord : kField (makeWord code jt jf k) = k := by
  apply BitVec.eq_of_getLsbD_eq
  intro i hi
  simp only [kField, makeWord, BitVec.getLsbD_extractLsb', BitVec.getLsbD_append]
  simp [hi]

/-- Decoding a word made of fields. -/
theorem decode_makeWord : decode (makeWord code jt jf k) = decodeFields code jt jf k := by
  simp [decode]

/-- The row found for a code has that code. -/
theorem opcodeRow_code {code : Code} {row : OpcodeRow} (h : opcodeRow code = some row) :
    row.code = code := by
  have := List.find?_some h
  simpa using this

/-- The row found for a code is a row of the table. -/
theorem opcodeRow_mem {code : Code} {row : OpcodeRow} (h : opcodeRow code = some row) :
    row ∈ opcodeTable := List.mem_of_find?_eq_some h

/-- The codes of the table, in its order. -/
theorem opcodeTable_codes :
    opcodeTable.map OpcodeRow.code = [
      0x0000, 0x0020, 0x0028, 0x0030, 0x0040, 0x0048, 0x0050, 0x0060, 0x0080,
      0x0001, 0x0061, 0x0081, 0x00B1, 0x0002, 0x0003, 0x0005, 0x0015, 0x0025,
      0x0035, 0x0045, 0x001D, 0x002D, 0x003D, 0x004D, 0x0004, 0x0014, 0x0024,
      0x0034, 0x0044, 0x0054, 0x0064, 0x0074, 0x000C, 0x001C, 0x002C, 0x003C,
      0x004C, 0x005C, 0x006C, 0x007C, 0x0084, 0x0007, 0x0087, 0x0006, 0x0016] := rfl

/-- A code without a row is none of the table's codes. -/
theorem opcodeRow_eq_none_iff {code : Code} :
    opcodeRow code = none ↔ code ∉ opcodeTable.map OpcodeRow.code := by
  simp only [opcodeRow, List.find?_eq_none, List.mem_map, beq_iff_eq, not_exists, not_and]

/-- A decoded word names a row of the opcode map, and the instruction is that row's. -/
theorem decodeFields_ok {code : Code} {jt jf : Count} {k : Imm} {i : Instr}
    (h : decodeFields code jt jf k = .ok i) :
    ∃ row, opcodeRow code = some row ∧ i = row.build jt jf k := by
  unfold decodeFields at h
  split at h
  · rename_i row hrow
    exact ⟨row, hrow, by cases h; rfl⟩
  · cases h

/-- A rejected word names no row, and the rejection carries its code. -/
theorem decodeFields_error {code : Code} {jt jf : Count} {k : Imm} {e : DecodeError}
    (h : decodeFields code jt jf k = .error e) : opcodeRow code = none ∧ e = .illegalCode code := by
  unfold decodeFields at h
  split at h
  · cases h
  · rename_i hrow
    exact ⟨hrow, by cases h; rfl⟩

end Sys2Proof
end

