-- ==== Sys2Proof/Laws/Memory.lean ====
section
/-!
SUPPORT. The laws of the two spaces: read after write, what a write leaves alone, and that every
operation keeps the canonical form.
-/

namespace Sys2Proof.Machine

variable {α : Type}

@[simp] theorem Memory.read_nil (i : Nat) : Memory.read ([] : Memory α) i = none := rfl

theorem Memory.read_write_same (mem : Memory α) (i : Nat) (v : α) :
    Memory.read (Memory.write mem i v) i = some v := by
  induction mem with
  | nil => simp [Memory.write, Memory.read]
  | cons cell rest ih =>
    obtain ⟨addr, old⟩ := cell
    by_cases hlt : i < addr
    · simp [Memory.write, Memory.read, hlt]
    · by_cases heq : i = addr
      · simp [Memory.write, Memory.read, heq]
      · simp [Memory.write, Memory.read, hlt, heq, ih]

theorem Memory.read_write_other (mem : Memory α) {i j : Nat} (v : α) (h : j ≠ i) :
    Memory.read (Memory.write mem i v) j = Memory.read mem j := by
  induction mem with
  | nil => simp [Memory.write, Memory.read, h]
  | cons cell rest ih =>
    obtain ⟨addr, old⟩ := cell
    by_cases hlt : i < addr
    · simp [Memory.write, Memory.read, hlt, h]
    · by_cases heq : i = addr
      · subst heq
        simp [Memory.write, Memory.read, h]
      · simp [Memory.write, Memory.read, hlt, heq, ih]

/-- The addresses of a space after a write. -/
theorem Memory.mem_addresses_write (mem : Memory α) (i : Nat) (v : α) {a : Nat}
    (h : a ∈ (Memory.write mem i v).map Prod.fst) : a = i ∨ a ∈ mem.map Prod.fst := by
  induction mem with
  | nil => simpa [Memory.write] using h
  | cons cell rest ih =>
    obtain ⟨addr, old⟩ := cell
    by_cases hlt : i < addr
    · simpa [Memory.write, hlt] using h
    · by_cases heq : i = addr
      · subst heq
        simp only [Memory.write, hlt, if_false, if_true, List.map_cons, List.mem_cons] at h ⊢
        tauto
      · simp only [Memory.write, hlt, heq, if_false, List.map_cons, List.mem_cons] at h ⊢
        rcases h with h | h
        · exact .inr (.inl h)
        · rcases ih h with h | h
          · exact .inl h
          · exact .inr (.inr h)

theorem Memory.wf_nil : Memory.wf ([] : Memory α) := List.Pairwise.nil

/-- A write keeps the canonical form. -/
theorem Memory.wf_write {mem : Memory α} (h : Memory.wf mem) (i : Nat) (v : α) :
    Memory.wf (Memory.write mem i v) := by
  induction mem with
  | nil => simp [Memory.wf, Memory.write]
  | cons cell rest ih =>
    obtain ⟨addr, old⟩ := cell
    simp only [Memory.wf, List.map_cons, List.pairwise_cons] at h
    by_cases hlt : i < addr
    · simp only [Memory.wf, Memory.write, hlt, if_true, List.map_cons, List.pairwise_cons,
        List.mem_cons]
      exact ⟨fun b hb => hb.elim (fun e => e ▸ hlt) fun hb => hlt.trans (h.1 b hb), h⟩
    · by_cases heq : i = addr
      · subst heq
        simpa [Memory.wf, Memory.write] using h
      · simp only [Memory.wf, Memory.write, hlt, heq, if_false, List.map_cons,
          List.pairwise_cons]
        refine ⟨fun b hb => ?_, ih h.2⟩
        rcases Memory.mem_addresses_write rest i v hb with e | hb
        · omega
        · exact h.1 b hb

/-- Reading a list of units presented from `base`. -/
theorem Memory.read_ofList (l : List α) (base i : Nat) :
    Memory.read (Memory.ofList base l) (base + i) = l[i]? := by
  induction l generalizing base i with
  | nil => simp [Memory.ofList]
  | cons v rest ih =>
    cases i with
    | zero => simp [Memory.ofList, Memory.read]
    | succ n =>
      have h := ih (base + 1) n
      rw [show base + 1 + n = base + (n + 1) by omega] at h
      simp [Memory.ofList, Memory.read, h]

/-- A list of units presented at consecutive addresses has the canonical form. -/
theorem Memory.wf_ofList (l : List α) (base : Nat) :
    Memory.wf (Memory.ofList base l) ∧ ∀ a ∈ (Memory.ofList base l).map Prod.fst, base ≤ a := by
  induction l generalizing base with
  | nil => simp [Memory.wf, Memory.ofList]
  | cons v rest ih =>
    obtain ⟨hwf, hle⟩ := ih (base + 1)
    constructor
    · simp only [Memory.wf, Memory.ofList, List.map_cons, List.pairwise_cons]
      exact ⟨fun b hb => hle b hb, hwf⟩
    · intro a ha
      simp only [Memory.ofList, List.map_cons, List.mem_cons] at ha
      rcases ha with rfl | ha
      · exact le_rfl
      · exact Nat.le_of_succ_le (hle a ha)

/-- Both spaces are in canonical form in the inputs of a run for which nothing is presented. -/
theorem RunInputs.empty_wf : Memory.wf RunInputs.empty.prog ∧ Memory.wf RunInputs.empty.storage :=
  ⟨Memory.wf_nil, Memory.wf_nil⟩

end Sys2Proof.Machine
end

