-- ==== Sys2Proof/Laws/Operands.lean ====
section
/-!
SUPPORT. What the operand forms and the conditions are as natural numbers.
-/

namespace Sys2Proof.Machine

@[simp] theorem immediate_toNat (k : Imm) : (immediate k).toNat = k.toNat := by
  have h := k.isLt
  simp only [immediate, BitVec.toNat_setWidth]
  omega

@[simp] theorem lengthValue_toNat (len : BitVec 32) : (lengthValue len).toNat = len.toNat :=
  immediate_toNat len

theorem immediate_eq_zero_iff (k : Imm) : immediate k = 0 ↔ k.toNat = 0 := by
  rw [← BitVec.toNat_inj]
  simp

/-- A slot index is an index below 16 equal to the whole of `k`. -/
theorem slotIndex_eq_some {k : Imm} {i : Fin Config.memWords} :
    slotIndex k = some i ↔ i.val = k.toNat := by
  unfold slotIndex
  split
  · simp only [Option.some.injEq]
    exact ⟨fun h => h ▸ rfl, fun h => Fin.ext h.symm⟩
  · rename_i h
    simp only [reduceCtorEq, false_iff]
    exact fun e => h (e ▸ i.isLt)

theorem slotIndex_eq_none {k : Imm} : slotIndex k = none ↔ Config.memWords ≤ k.toNat := by
  unfold slotIndex
  split <;> simp_all

/-- `MSH` as arithmetic: four times the value modulo 16. -/
theorem mshValue_toNat (v : Word) : (mshValue v).toNat = v.toNat % 16 * 4 := by
  have h : v.toNat &&& 15 = v.toNat % 16 := Nat.and_two_pow_sub_one_eq_mod v.toNat 4
  have hlit : (0x0F : Word).toNat = 15 := rfl
  simp only [mshValue, BitVec.toNat_shiftLeft, BitVec.toNat_and, Nat.shiftLeft_eq, hlit, h]
  omega

/-- The target of a conditional jump, where `pc + 1 + offset` does not wrap. -/
theorem branchTarget_toNat {pc : Word} (offset : Count) (h : pc.toNat + 256 < 2 ^ 64) :
    (branchTarget pc offset).toNat = pc.toNat + 1 + offset.toNat := by
  have ho := offset.isLt
  have hlit : (1 : Word).toNat = 1 := rfl
  simp only [branchTarget, BitVec.toNat_add, BitVec.toNat_setWidth, hlit]
  omega

theorem condEq_iff (a opnd : Word) : condEq a opnd = true ↔ a.toNat = opnd.toNat := by
  simp [condEq, BitVec.toNat_inj]

theorem condGt_iff (a opnd : Word) : condGt a opnd = true ↔ a.toNat > opnd.toNat := by
  simp [condGt, BitVec.ult]

theorem condGe_iff (a opnd : Word) : condGe a opnd = true ↔ a.toNat ≥ opnd.toNat := by
  simp [condGe, BitVec.ule]

theorem condSet_iff (a opnd : Word) : condSet a opnd = true ↔ a.toNat &&& opnd.toNat ≠ 0 := by
  simp [condSet, ← BitVec.toNat_inj]

end Sys2Proof.Machine
end

