-- ==== Sys2Proof/Laws/State.lean ====
section
/-!
SUPPORT. One lemma per field per update of the state, true by definition; the endings as uses of
`State.endRun`; reading slots and packet bytes after an update.
-/

namespace Sys2Proof.Machine

variable (s : State)

@[simp] theorem State.setA_a (v : Word) : (s.setA v).a = v := rfl
@[simp] theorem State.setA_x (v : Word) : (s.setA v).x = s.x := rfl
@[simp] theorem State.setA_m (v : Word) : (s.setA v).m = s.m := rfl
@[simp] theorem State.setA_pc (v : Word) : (s.setA v).pc = s.pc := rfl
@[simp] theorem State.setA_status (v : Word) : (s.setA v).status = s.status := rfl
@[simp] theorem State.setA_outcome (v : Word) : (s.setA v).outcome = s.outcome := rfl
@[simp] theorem State.setA_inputs (v : Word) : (s.setA v).inputs = s.inputs := rfl
@[simp] theorem State.setA_launches (v : Word) : (s.setA v).launches = s.launches := rfl
@[simp] theorem State.setA_freeSeed (v : Word) : (s.setA v).freeSeed = s.freeSeed := rfl

@[simp] theorem State.setX_a (v : Word) : (s.setX v).a = s.a := rfl
@[simp] theorem State.setX_x (v : Word) : (s.setX v).x = v := rfl
@[simp] theorem State.setX_m (v : Word) : (s.setX v).m = s.m := rfl
@[simp] theorem State.setX_pc (v : Word) : (s.setX v).pc = s.pc := rfl
@[simp] theorem State.setX_status (v : Word) : (s.setX v).status = s.status := rfl
@[simp] theorem State.setX_outcome (v : Word) : (s.setX v).outcome = s.outcome := rfl
@[simp] theorem State.setX_inputs (v : Word) : (s.setX v).inputs = s.inputs := rfl
@[simp] theorem State.setX_launches (v : Word) : (s.setX v).launches = s.launches := rfl
@[simp] theorem State.setX_freeSeed (v : Word) : (s.setX v).freeSeed = s.freeSeed := rfl

@[simp] theorem State.setPc_a (v : Word) : (s.setPc v).a = s.a := rfl
@[simp] theorem State.setPc_x (v : Word) : (s.setPc v).x = s.x := rfl
@[simp] theorem State.setPc_m (v : Word) : (s.setPc v).m = s.m := rfl
@[simp] theorem State.setPc_pc (v : Word) : (s.setPc v).pc = v := rfl
@[simp] theorem State.setPc_status (v : Word) : (s.setPc v).status = s.status := rfl
@[simp] theorem State.setPc_outcome (v : Word) : (s.setPc v).outcome = s.outcome := rfl
@[simp] theorem State.setPc_inputs (v : Word) : (s.setPc v).inputs = s.inputs := rfl
@[simp] theorem State.setPc_launches (v : Word) : (s.setPc v).launches = s.launches := rfl
@[simp] theorem State.setPc_freeSeed (v : Word) : (s.setPc v).freeSeed = s.freeSeed := rfl

@[simp] theorem State.advance_a : (s.advance).a = s.a := rfl
@[simp] theorem State.advance_x : (s.advance).x = s.x := rfl
@[simp] theorem State.advance_m : (s.advance).m = s.m := rfl
@[simp] theorem State.advance_pc : (s.advance).pc = s.pc + 1 := rfl
@[simp] theorem State.advance_status : (s.advance).status = s.status := rfl
@[simp] theorem State.advance_outcome : (s.advance).outcome = s.outcome := rfl
@[simp] theorem State.advance_inputs : (s.advance).inputs = s.inputs := rfl
@[simp] theorem State.advance_launches : (s.advance).launches = s.launches := rfl
@[simp] theorem State.advance_freeSeed : (s.advance).freeSeed = s.freeSeed := rfl

@[simp] theorem State.setSlot_a (i : Fin Config.memWords) (v : Word) : (s.setSlot i v).a = s.a := rfl
@[simp] theorem State.setSlot_x (i : Fin Config.memWords) (v : Word) : (s.setSlot i v).x = s.x := rfl
@[simp] theorem State.setSlot_m (i : Fin Config.memWords) (v : Word) : (s.setSlot i v).m = s.m.set i v := rfl
@[simp] theorem State.setSlot_pc (i : Fin Config.memWords) (v : Word) : (s.setSlot i v).pc = s.pc := rfl
@[simp] theorem State.setSlot_status (i : Fin Config.memWords) (v : Word) : (s.setSlot i v).status = s.status := rfl
@[simp] theorem State.setSlot_outcome (i : Fin Config.memWords) (v : Word) : (s.setSlot i v).outcome = s.outcome := rfl
@[simp] theorem State.setSlot_inputs (i : Fin Config.memWords) (v : Word) : (s.setSlot i v).inputs = s.inputs := rfl
@[simp] theorem State.setSlot_launches (i : Fin Config.memWords) (v : Word) : (s.setSlot i v).launches = s.launches := rfl
@[simp] theorem State.setSlot_freeSeed (i : Fin Config.memWords) (v : Word) : (s.setSlot i v).freeSeed = s.freeSeed := rfl

@[simp] theorem State.endRun_a (st : Status) (o : RunOutcome) : (s.endRun st o).a = s.a := rfl
@[simp] theorem State.endRun_x (st : Status) (o : RunOutcome) : (s.endRun st o).x = s.x := rfl
@[simp] theorem State.endRun_m (st : Status) (o : RunOutcome) : (s.endRun st o).m = s.m := rfl
@[simp] theorem State.endRun_pc (st : Status) (o : RunOutcome) : (s.endRun st o).pc = s.pc := rfl
@[simp] theorem State.endRun_status (st : Status) (o : RunOutcome) : (s.endRun st o).status = st := rfl
@[simp] theorem State.endRun_outcome (st : Status) (o : RunOutcome) : (s.endRun st o).outcome = o := rfl
@[simp] theorem State.endRun_inputs (st : Status) (o : RunOutcome) : (s.endRun st o).inputs = s.inputs := rfl
@[simp] theorem State.endRun_launches (st : Status) (o : RunOutcome) : (s.endRun st o).launches = s.launches := rfl
@[simp] theorem State.endRun_freeSeed (st : Status) (o : RunOutcome) : (s.endRun st o).freeSeed = s.freeSeed := rfl

@[simp] theorem State.intoA_a (v : Word) : (s.intoA v).a = v := rfl
@[simp] theorem State.intoA_x (v : Word) : (s.intoA v).x = s.x := rfl
@[simp] theorem State.intoA_m (v : Word) : (s.intoA v).m = s.m := rfl
@[simp] theorem State.intoA_pc (v : Word) : (s.intoA v).pc = s.pc + 1 := rfl
@[simp] theorem State.intoA_status (v : Word) : (s.intoA v).status = s.status := rfl
@[simp] theorem State.intoA_outcome (v : Word) : (s.intoA v).outcome = s.outcome := rfl
@[simp] theorem State.intoA_inputs (v : Word) : (s.intoA v).inputs = s.inputs := rfl
@[simp] theorem State.intoA_launches (v : Word) : (s.intoA v).launches = s.launches := rfl
@[simp] theorem State.intoA_freeSeed (v : Word) : (s.intoA v).freeSeed = s.freeSeed := rfl

@[simp] theorem State.intoX_a (v : Word) : (s.intoX v).a = s.a := rfl
@[simp] theorem State.intoX_x (v : Word) : (s.intoX v).x = v := rfl
@[simp] theorem State.intoX_m (v : Word) : (s.intoX v).m = s.m := rfl
@[simp] theorem State.intoX_pc (v : Word) : (s.intoX v).pc = s.pc + 1 := rfl
@[simp] theorem State.intoX_status (v : Word) : (s.intoX v).status = s.status := rfl
@[simp] theorem State.intoX_outcome (v : Word) : (s.intoX v).outcome = s.outcome := rfl
@[simp] theorem State.intoX_inputs (v : Word) : (s.intoX v).inputs = s.inputs := rfl
@[simp] theorem State.intoX_launches (v : Word) : (s.intoX v).launches = s.launches := rfl
@[simp] theorem State.intoX_freeSeed (v : Word) : (s.intoX v).freeSeed = s.freeSeed := rfl

@[simp] theorem State.start_a (r : RunInputs) : (s.start r).a = 0 := rfl
@[simp] theorem State.start_x (r : RunInputs) : (s.start r).x = 0 := rfl
@[simp] theorem State.start_m (r : RunInputs) : (s.start r).m = Vector.replicate Config.memWords 0 := rfl
@[simp] theorem State.start_pc (r : RunInputs) : (s.start r).pc = 0 := rfl
@[simp] theorem State.start_status (r : RunInputs) : (s.start r).status = .running := rfl
@[simp] theorem State.start_outcome (r : RunInputs) : (s.start r).outcome = .none := rfl
@[simp] theorem State.start_inputs (r : RunInputs) : (s.start r).inputs = r := rfl
@[simp] theorem State.start_launches (r : RunInputs) : (s.start r).launches = s.launches.tail := rfl
@[simp] theorem State.start_freeSeed (r : RunInputs) : (s.start r).freeSeed = s.freeSeed + 1 := rfl

theorem State.haltReturn_eq (v : Word) : s.haltReturn v = s.endRun .doneReturn (.verdict v) := rfl
theorem State.rejectBounds_eq : s.rejectBounds = s.endRun .doneRejectBounds (.verdict 0) := rfl
theorem State.rejectDivZero_eq : s.rejectDivZero = s.endRun .doneRejectDivzero (.verdict 0) := rfl
theorem State.raiseIllegal_eq (code : Code) :
    s.raiseIllegal code = s.endRun .faultIllegal (.fault ⟨.illegal, code, s.pc, 0⟩) := rfl
theorem State.raiseIndexPc_eq :
    s.raiseIndexPc = s.endRun .faultIndexPc (.fault ⟨.fetchIndex, 0, s.pc, s.pc⟩) := rfl
theorem State.raiseIndexMem_eq (code : Code) (k : Imm) :
    s.raiseIndexMem code k =
      s.endRun .faultIndexMem (.fault ⟨.scratchIndex, code, s.pc, immediate k⟩) := rfl

/-! ## Slots -/

/-- A slot is read from `m` alone. -/
theorem State.slot_congr {s t : State} (h : t.m = s.m) (i : Fin Config.memWords) :
    t.slot i = s.slot i := by simp [State.slot, h]

@[simp] theorem State.setSlot_slot_same (i : Fin Config.memWords) (v : Word) :
    (s.setSlot i v).slot i = v := by simp [State.slot, Vector.get_eq_getElem]

theorem State.setSlot_slot_other {i j : Fin Config.memWords} (v : Word) (h : j ≠ i) :
    (s.setSlot i v).slot j = s.slot j := by
  have hne : i.val ≠ j.val := fun e => h (Fin.ext e.symm)
  simp [State.slot, Vector.get_eq_getElem, hne]

@[simp] theorem State.start_slot (r : RunInputs) (i : Fin Config.memWords) :
    (s.start r).slot i = 0 := by simp [State.slot, Vector.get_eq_getElem]

/-! ## Packet bytes -/

/-- A packet byte is read from the run inputs (and the run's free bytes) alone. -/
theorem State.packetByte_congr {s t : State} (hi : t.inputs = s.inputs)
    (hf : t.freeSeed = s.freeSeed) (off : Nat) : t.packetByte off = s.packetByte off := by
  simp [State.packetByte, hi, hf]

end Sys2Proof.Machine
end

