-- ==== Sys2Proof/Laws/Ops.lean ====
section
/-!
SUPPORT. For each shared operation, once, everything it can answer.
-/

namespace Sys2Proof.Machine

variable {s t : State}

/-- A packet read inside `CAPLEN` goes on with the value read. -/
theorem State.packetLoad_inside {size : Size} {off : Nat} (use : Word → State)
    (h : off + size.bytes ≤ s.inputs.capLen.toNat) :
    s.packetLoad size off use = .next (use (BitVec.ofNat 64 (s.memRead off size.bytes))) := by
  simp [State.packetLoad, State.inBounds, h]

/-- A packet read beyond `CAPLEN` ends the run with the bounds reject. -/
theorem State.packetLoad_outside {size : Size} {off : Nat} (use : Word → State)
    (h : s.inputs.capLen.toNat < off + size.bytes) :
    s.packetLoad size off use = .next s.rejectBounds := by
  simp [State.packetLoad, State.inBounds, Nat.not_le.mpr h]

/-- Everything a packet read can answer. -/
theorem State.packetLoad_next {size : Size} {off : Nat} {use : Word → State}
    (h : s.packetLoad size off use = .next t) :
    (off + size.bytes ≤ s.inputs.capLen.toNat ∧
      t = use (BitVec.ofNat 64 (s.memRead off size.bytes))) ∨
    (s.inputs.capLen.toNat < off + size.bytes ∧ t = s.rejectBounds) := by
  rcases Nat.lt_or_ge s.inputs.capLen.toNat (off + size.bytes) with hb | hb
  · rw [State.packetLoad_outside use hb] at h
    cases h
    exact .inr ⟨hb, rfl⟩
  · rw [State.packetLoad_inside use hb] at h
    cases h
    exact .inl ⟨hb, rfl⟩

/-- A scratch access to an existing slot. -/
theorem State.withSlot_inside {code : Code} {k : Imm} {i : Fin Config.memWords}
    (use : Fin Config.memWords → State) (h : i.val = k.toNat) :
    s.withSlot code k use = .next (use i) := by
  simp [State.withSlot, slotIndex_eq_some.mpr h]

/-- A scratch access beyond the slots raises the fault. -/
theorem State.withSlot_outside {code : Code} {k : Imm} (use : Fin Config.memWords → State)
    (h : Config.memWords ≤ k.toNat) :
    s.withSlot code k use = .next (s.raiseIndexMem code k) := by
  simp [State.withSlot, slotIndex_eq_none.mpr h]

/-- Everything a scratch access can answer. -/
theorem State.withSlot_next {code : Code} {k : Imm} {use : Fin Config.memWords → State}
    (h : s.withSlot code k use = .next t) :
    (∃ i : Fin Config.memWords, i.val = k.toNat ∧ t = use i) ∨
    (Config.memWords ≤ k.toNat ∧ t = s.raiseIndexMem code k) := by
  rcases Nat.lt_or_ge k.toNat Config.memWords with hk | hk
  · rw [State.withSlot_inside (i := ⟨k.toNat, hk⟩) use rfl] at h
    cases h
    exact .inl ⟨_, rfl, rfl⟩
  · rw [State.withSlot_outside use hk] at h
    cases h
    exact .inr ⟨hk, rfl⟩

/-- Everything a division can answer. -/
theorem State.divideA_next {d : Word} (h : s.divideA d = .next t) :
    (d ≠ 0 ∧ t = s.intoA (s.a / d)) ∨ (d = 0 ∧ t = s.rejectDivZero) := by
  by_cases hd : d = 0
  · simp only [State.divideA, hd, if_true] at h
    cases h
    exact .inr ⟨hd, rfl⟩
  · simp only [State.divideA, hd, if_false] at h
    cases h
    exact .inl ⟨hd, rfl⟩

/-- What a conditional jump answers. -/
theorem State.branch_eq (cond : Bool) (jt jf : Count) :
    s.branch cond jt jf = .next (s.setPc (branchTarget s.pc (if cond then jt else jf))) := rfl

/-- Everything an engine that is not running can answer. -/
theorem State.awaitStart_next (h : s.awaitStart = .next t) :
    (s.launches = [] ∧ t = s) ∨
    ∃ r rest, s.launches = r :: rest ∧ r.progLen.toNat ≤ Config.progLenMax ∧ t = s.start r := by
  unfold State.awaitStart at h
  split at h
  · rename_i hl
    cases h
    exact .inl ⟨hl, rfl⟩
  · rename_i r rest hl
    split at h
    · cases h
    · rename_i hlen
      cases h
      exact .inr ⟨r, rest, hl, Nat.le_of_not_lt hlen, rfl⟩

/-- Bytes read as one number in either order stay below the number of values they can hold. -/
theorem littleEndian_lt (bytes : List Byte) : littleEndian bytes < 2 ^ (8 * bytes.length) := by
  induction bytes with
  | nil => simp [littleEndian]
  | cons v rest ih =>
    have hv := v.isLt
    simp only [littleEndian, List.foldr_cons, List.length_cons] at ih ⊢
    rw [show 8 * (rest.length + 1) = 8 * rest.length + 8 by ring, pow_add]
    omega

theorem bigEndian_eq (bytes : List Byte) : bigEndian bytes = littleEndian bytes.reverse := by
  simp [bigEndian, littleEndian, List.foldr_reverse, Nat.add_comm]

theorem bigEndian_lt (bytes : List Byte) : bigEndian bytes < 2 ^ (8 * bytes.length) := by
  rw [bigEndian_eq]
  simpa using littleEndian_lt bytes.reverse

/-- A packet read of `n` bytes is below `2^(8n)` (00_scope.md R13). -/
theorem State.memRead_lt (s : State) (off n : Nat) : s.memRead off n < 2 ^ (8 * n) := by
  have hlen : (s.packetBytes off n).length = n := by simp [State.packetBytes]
  unfold State.memRead
  split
  · simpa [hlen] using bigEndian_lt (s.packetBytes off n)
  · simpa [hlen] using littleEndian_lt (s.packetBytes off n)

/-- A packet read of any of the three sizes fits the 64 bits it is widened to. -/
theorem State.memRead_lt_word (s : State) (off : Nat) (size : Size) :
    s.memRead off size.bytes < 2 ^ 64 := by
  refine (s.memRead_lt off size.bytes).trans_le (Nat.pow_le_pow_right (by decide) ?_)
  cases size <;> decide

end Sys2Proof.Machine
end

