-- ==== Sys2Proof/Laws/PerInstr.lean ====
section
/-!
SUPPORT. Statements made per instruction, one lemma per constructor.
-/

namespace Sys2Proof.Laws.EncodesItsRow

/-- The row that the code of `i` selects builds `i` from the fields the encoder writes. -/
def Statement (i : Instr) : Prop :=
  ∃ row, opcodeRow i.code = some row ∧ row.code = i.code ∧ row.build i.jt i.jf i.k = i

theorem ldWImm (k : Imm) : Statement (.ldWImm k) := ⟨_, rfl, rfl, rfl⟩
theorem ldWAbs (k : Imm) : Statement (.ldWAbs k) := ⟨_, rfl, rfl, rfl⟩
theorem ldHAbs (k : Imm) : Statement (.ldHAbs k) := ⟨_, rfl, rfl, rfl⟩
theorem ldBAbs (k : Imm) : Statement (.ldBAbs k) := ⟨_, rfl, rfl, rfl⟩
theorem ldWInd (k : Imm) : Statement (.ldWInd k) := ⟨_, rfl, rfl, rfl⟩
theorem ldHInd (k : Imm) : Statement (.ldHInd k) := ⟨_, rfl, rfl, rfl⟩
theorem ldBInd (k : Imm) : Statement (.ldBInd k) := ⟨_, rfl, rfl, rfl⟩
theorem ldWMem (k : Imm) : Statement (.ldWMem k) := ⟨_, rfl, rfl, rfl⟩
theorem ldWLen : Statement .ldWLen := ⟨_, rfl, rfl, rfl⟩
theorem ldxWImm (k : Imm) : Statement (.ldxWImm k) := ⟨_, rfl, rfl, rfl⟩
theorem ldxWMem (k : Imm) : Statement (.ldxWMem k) := ⟨_, rfl, rfl, rfl⟩
theorem ldxWLen : Statement .ldxWLen := ⟨_, rfl, rfl, rfl⟩
theorem ldxBMsh (k : Imm) : Statement (.ldxBMsh k) := ⟨_, rfl, rfl, rfl⟩
theorem st (k : Imm) : Statement (.st k) := ⟨_, rfl, rfl, rfl⟩
theorem stx (k : Imm) : Statement (.stx k) := ⟨_, rfl, rfl, rfl⟩
theorem jmpJa (k : Imm) : Statement (.jmpJa k) := ⟨_, rfl, rfl, rfl⟩
theorem jmpJeqK (jt jf : Count) (k : Imm) : Statement (.jmpJeqK jt jf k) := ⟨_, rfl, rfl, rfl⟩
theorem jmpJgtK (jt jf : Count) (k : Imm) : Statement (.jmpJgtK jt jf k) := ⟨_, rfl, rfl, rfl⟩
theorem jmpJgeK (jt jf : Count) (k : Imm) : Statement (.jmpJgeK jt jf k) := ⟨_, rfl, rfl, rfl⟩
theorem jmpJsetK (jt jf : Count) (k : Imm) : Statement (.jmpJsetK jt jf k) := ⟨_, rfl, rfl, rfl⟩
theorem jmpJeqX (jt jf : Count) : Statement (.jmpJeqX jt jf) := ⟨_, rfl, rfl, rfl⟩
theorem jmpJgtX (jt jf : Count) : Statement (.jmpJgtX jt jf) := ⟨_, rfl, rfl, rfl⟩
theorem jmpJgeX (jt jf : Count) : Statement (.jmpJgeX jt jf) := ⟨_, rfl, rfl, rfl⟩
theorem jmpJsetX (jt jf : Count) : Statement (.jmpJsetX jt jf) := ⟨_, rfl, rfl, rfl⟩
theorem aluAddK (k : Imm) : Statement (.aluAddK k) := ⟨_, rfl, rfl, rfl⟩
theorem aluSubK (k : Imm) : Statement (.aluSubK k) := ⟨_, rfl, rfl, rfl⟩
theorem aluMulK (k : Imm) : Statement (.aluMulK k) := ⟨_, rfl, rfl, rfl⟩
theorem aluDivK (k : Imm) : Statement (.aluDivK k) := ⟨_, rfl, rfl, rfl⟩
theorem aluOrK (k : Imm) : Statement (.aluOrK k) := ⟨_, rfl, rfl, rfl⟩
theorem aluAndK (k : Imm) : Statement (.aluAndK k) := ⟨_, rfl, rfl, rfl⟩
theorem aluLshK (k : Imm) : Statement (.aluLshK k) := ⟨_, rfl, rfl, rfl⟩
theorem aluRshK (k : Imm) : Statement (.aluRshK k) := ⟨_, rfl, rfl, rfl⟩
theorem aluAddX : Statement .aluAddX := ⟨_, rfl, rfl, rfl⟩
theorem aluSubX : Statement .aluSubX := ⟨_, rfl, rfl, rfl⟩
theorem aluMulX : Statement .aluMulX := ⟨_, rfl, rfl, rfl⟩
theorem aluDivX : Statement .aluDivX := ⟨_, rfl, rfl, rfl⟩
theorem aluOrX : Statement .aluOrX := ⟨_, rfl, rfl, rfl⟩
theorem aluAndX : Statement .aluAndX := ⟨_, rfl, rfl, rfl⟩
theorem aluLshX : Statement .aluLshX := ⟨_, rfl, rfl, rfl⟩
theorem aluRshX : Statement .aluRshX := ⟨_, rfl, rfl, rfl⟩
theorem aluNeg : Statement .aluNeg := ⟨_, rfl, rfl, rfl⟩
theorem miscTax : Statement .miscTax := ⟨_, rfl, rfl, rfl⟩
theorem miscTxa : Statement .miscTxa := ⟨_, rfl, rfl, rfl⟩
theorem retK (k : Imm) : Statement (.retK k) := ⟨_, rfl, rfl, rfl⟩
theorem retA : Statement .retA := ⟨_, rfl, rfl, rfl⟩

end Sys2Proof.Laws.EncodesItsRow
end

