-- ==== Sys2Proof/Laws/Step.lean ====
section
/-!
SUPPORT. Everything a step can answer, and what several steps are.
-/

namespace Sys2Proof.Machine

variable {s t : State}

theorem State.pcOutside_iff : s.pcOutside = true ↔ s.inputs.progLen.toNat ≤ s.pc.toNat := by
  simp [State.pcOutside]

/-- A step of a run in progress, `pc` inside the program and a word there: decode and run it. -/
theorem step_fetched {w : Word} (hrun : s.status = .running)
    (hpc : s.pc.toNat < s.inputs.progLen.toNat)
    (hw : Memory.read s.inputs.prog s.pc.toNat = some w) :
    step s = match decode w with
      | .error (.illegalCode code) => .next (s.raiseIllegal code)
      | .ok i => exec i s := by
  have hout : ¬ s.inputs.progLen.toNat ≤ s.pc.toNat := Nat.not_le.mpr hpc
  cases hd : decode w with
  | error e =>
    obtain ⟨code⟩ := e
    simp [step, hrun, stepRunning, State.pcOutside, hout, State.fetchWord, hw, hd]
  | ok i => simp [step, hrun, stepRunning, State.pcOutside, hout, State.fetchWord, hw, hd]

/-- A step of a run in progress, `pc` outside the program. -/
theorem step_outside (hrun : s.status = .running) (hpc : s.inputs.progLen.toNat ≤ s.pc.toNat) :
    step s = .next s.raiseIndexPc := by
  simp [step, hrun, stepRunning, State.pcOutside, hpc]

/-- A step of an engine that is not running. -/
theorem step_idle (hrun : s.status ≠ .running) : step s = s.awaitStart := by
  simp [step, hrun]

/-- Everything a step of a run in progress can answer as a next state. -/
theorem step_running_next (hrun : s.status = .running) (h : step s = .next t) :
    (s.inputs.progLen.toNat ≤ s.pc.toNat ∧ t = s.raiseIndexPc) ∨
    ∃ w, s.pc.toNat < s.inputs.progLen.toNat ∧
      Memory.read s.inputs.prog s.pc.toNat = some w ∧
      ((∃ code, decode w = .error (.illegalCode code) ∧ t = s.raiseIllegal code) ∨
        ∃ i, decode w = .ok i ∧ exec i s = .next t) := by
  rcases Nat.lt_or_ge s.pc.toNat s.inputs.progLen.toNat with hpc | hpc
  · cases hw : Memory.read s.inputs.prog s.pc.toNat with
    | none =>
      have hout : ¬ s.inputs.progLen.toNat ≤ s.pc.toNat := Nat.not_le.mpr hpc
      simp [step, hrun, stepRunning, State.pcOutside, hout, State.fetchWord, hw] at h
    | some w =>
      rw [step_fetched hrun hpc hw] at h
      refine .inr ⟨w, hpc, rfl, ?_⟩
      cases hd : decode w with
      | error e =>
        obtain ⟨code⟩ := e
        simp only [hd] at h
        cases h
        exact .inl ⟨code, rfl, rfl⟩
      | ok i =>
        simp only [hd] at h
        exact .inr ⟨i, rfl, h⟩
  · rw [step_outside hrun hpc] at h
    cases h
    exact .inl ⟨hpc, rfl⟩

@[simp] theorem core_step : Sys2Proof.core.step = step := rfl

theorem run_zero (s : State) : Sys2Proof.core.run 0 s = .next s := rfl

/-- Of any machine behind the host's interface: several steps are one step and then the rest. -/
theorem core_run_succ (M : Host.Core) (n : Nat) (s : M.State) :
    M.run (n + 1) s = match M.step s with
      | .next t => M.run n t
      | .fault f => .fault f
      | .refused r => .refused r := rfl

/-- One step and then the rest. -/
theorem run_succ (n : Nat) (s : State) :
    Sys2Proof.core.run (n + 1) s = match step s with
      | .next t => Sys2Proof.core.run n t
      | .fault f => .fault f
      | .refused r => .refused r := by
  refine (core_run_succ Sys2Proof.core n s).trans ?_
  rw [core_step]
  cases step s <;> rfl

/-- A step that answers a next state, and then the rest. -/
theorem run_succ_next {n : Nat} (h : step s = .next t) :
    Sys2Proof.core.run (n + 1) s = Sys2Proof.core.run n t := by
  rw [run_succ, h]

end Sys2Proof.Machine
end

