-- ==== Sys2Proof/Tests/Slice0.lean ====
section
/-!
SUPPORT. The model's own tests. Expected values are those of 95_test_vectors.md (the vector's number
stands in the comment), which the spec derived from its rules, or are computed by hand from the rule
named. After them, for each statement with hypotheses, a state that meets them.
-/

namespace Sys2Proof.Tests

open Sys2Proof.Machine

/-! ## Well-formedness: what each check refuses -/

/-- R263 (d): slot 16 does not exist, slot 15 does. -/
theorem test_slot_16_is_ill_formed :
    (Instr.ldWMem 16).wellFormed = false ∧ (Instr.ldxWMem 16).wellFormed = false ∧
      (Instr.st 16).wellFormed = false ∧ (Instr.stx 0xFFFFFFFF).wellFormed = false ∧
      (Instr.st 15).wellFormed = true := by decide

/-- R263 (b): a branch, a `JA` and a fall-through out of a program of 2 (P5e, P5b). -/
theorem test_leaving_the_program_is_refused :
    (Instr.jmpJeqK 5 0 0).staysInside 2 0 = false ∧ (Instr.jmpJeqX 0 1).staysInside 2 0 = false ∧
      (Instr.jmpJa 2).staysInside 2 0 = false ∧ Instr.miscTax.staysInside 2 1 = false ∧
      (Instr.jmpJa 1).staysInside 2 0 = true ∧ Instr.retA.staysInside 2 1 = true := by decide

/-- R239: a `JA` to its own index or back is not forward; a `JA` ahead is. -/
theorem test_backward_jump_is_not_forward :
    (Instr.jmpJa 4).goesForward 11 = false ∧ (Instr.jmpJa 0).goesForward 0 = false ∧
      (Instr.jmpJa 4).goesForward 3 = true ∧ (Instr.jmpJeqK 0 0 0).goesForward 3 = true := by decide

/-- R262 duty 2, R263: the empty program (P5f), a missing `RET` (P5b), a bad slot (P5c), a good one. -/
theorem test_ill_formed_programs_are_refused :
    programWellFormed [] = false ∧ programWellFormed [.ldWImm 1] = false ∧
      programWellFormed [.ldWImm 7, .st 16, .retA] = false ∧
      programWellFormed [.ldWImm 7, .st 15, .retA] = true := by decide

/-! ## Decoding: words written out from 30_encoding.md R81 and R93 -/

/-- R93: the 13 loads, `jt = 0xA5`, `jf = 0x3C`, `k = 0x80000001`. -/
theorem test_decode_loads :
    decode 0x0000A53C80000001 = .ok (.ldWImm 0x80000001) ∧
    decode 0x0020A53C80000001 = .ok (.ldWAbs 0x80000001) ∧
    decode 0x0028A53C80000001 = .ok (.ldHAbs 0x80000001) ∧
    decode 0x0030A53C80000001 = .ok (.ldBAbs 0x80000001) ∧
    decode 0x0040A53C80000001 = .ok (.ldWInd 0x80000001) ∧
    decode 0x0048A53C80000001 = .ok (.ldHInd 0x80000001) ∧
    decode 0x0050A53C80000001 = .ok (.ldBInd 0x80000001) ∧
    decode 0x0060A53C80000001 = .ok (.ldWMem 0x80000001) ∧
    decode 0x0080A53C80000001 = .ok .ldWLen ∧
    decode 0x0001A53C80000001 = .ok (.ldxWImm 0x80000001) ∧
    decode 0x0061A53C80000001 = .ok (.ldxWMem 0x80000001) ∧
    decode 0x0081A53C80000001 = .ok .ldxWLen ∧
    decode 0x00B1A53C80000001 = .ok (.ldxBMsh 0x80000001) :=
  ⟨rfl, rfl, rfl, rfl, rfl, rfl, rfl, rfl, rfl, rfl, rfl, rfl, rfl⟩

/-- R93: the 2 stores, `jt = 0xA5`, `jf = 0x3C`, `k = 0x80000001`. -/
theorem test_decode_stores :
    decode 0x0002A53C80000001 = .ok (.st 0x80000001) ∧
    decode 0x0003A53C80000001 = .ok (.stx 0x80000001) :=
  ⟨rfl, rfl⟩

/-- R93: the 9 jumps, `jt = 0xA5`, `jf = 0x3C`, `k = 0x80000001`. -/
theorem test_decode_jumps :
    decode 0x0005A53C80000001 = .ok (.jmpJa 0x80000001) ∧
    decode 0x0015A53C80000001 = .ok (.jmpJeqK 0xA5 0x3C 0x80000001) ∧
    decode 0x0025A53C80000001 = .ok (.jmpJgtK 0xA5 0x3C 0x80000001) ∧
    decode 0x0035A53C80000001 = .ok (.jmpJgeK 0xA5 0x3C 0x80000001) ∧
    decode 0x0045A53C80000001 = .ok (.jmpJsetK 0xA5 0x3C 0x80000001) ∧
    decode 0x001DA53C80000001 = .ok (.jmpJeqX 0xA5 0x3C) ∧
    decode 0x002DA53C80000001 = .ok (.jmpJgtX 0xA5 0x3C) ∧
    decode 0x003DA53C80000001 = .ok (.jmpJgeX 0xA5 0x3C) ∧
    decode 0x004DA53C80000001 = .ok (.jmpJsetX 0xA5 0x3C) :=
  ⟨rfl, rfl, rfl, rfl, rfl, rfl, rfl, rfl, rfl⟩

/-- R93: the 17 arithmetic instructions, `jt = 0xA5`, `jf = 0x3C`, `k = 0x80000001`. -/
theorem test_decode_alu :
    decode 0x0004A53C80000001 = .ok (.aluAddK 0x80000001) ∧
    decode 0x0014A53C80000001 = .ok (.aluSubK 0x80000001) ∧
    decode 0x0024A53C80000001 = .ok (.aluMulK 0x80000001) ∧
    decode 0x0034A53C80000001 = .ok (.aluDivK 0x80000001) ∧
    decode 0x0044A53C80000001 = .ok (.aluOrK 0x80000001) ∧
    decode 0x0054A53C80000001 = .ok (.aluAndK 0x80000001) ∧
    decode 0x0064A53C80000001 = .ok (.aluLshK 0x80000001) ∧
    decode 0x0074A53C80000001 = .ok (.aluRshK 0x80000001) ∧
    decode 0x000CA53C80000001 = .ok .aluAddX ∧
    decode 0x001CA53C80000001 = .ok .aluSubX ∧
    decode 0x002CA53C80000001 = .ok .aluMulX ∧
    decode 0x003CA53C80000001 = .ok .aluDivX ∧
    decode 0x004CA53C80000001 = .ok .aluOrX ∧
    decode 0x005CA53C80000001 = .ok .aluAndX ∧
    decode 0x006CA53C80000001 = .ok .aluLshX ∧
    decode 0x007CA53C80000001 = .ok .aluRshX ∧
    decode 0x0084A53C80000001 = .ok .aluNeg :=
  ⟨rfl, rfl, rfl, rfl, rfl, rfl, rfl, rfl, rfl, rfl, rfl, rfl, rfl, rfl, rfl, rfl, rfl⟩

/-- R93: the 2 misc, `jt = 0xA5`, `jf = 0x3C`, `k = 0x80000001`. -/
theorem test_decode_misc :
    decode 0x0007A53C80000001 = .ok .miscTax ∧
    decode 0x0087A53C80000001 = .ok .miscTxa :=
  ⟨rfl, rfl⟩

/-- R93: the 2 returns, `jt = 0xA5`, `jf = 0x3C`, `k = 0x80000001`. -/
theorem test_decode_returns :
    decode 0x0006A53C80000001 = .ok (.retK 0x80000001) ∧
    decode 0x0016A53C80000001 = .ok .retA :=
  ⟨rfl, rfl⟩

/-- The illegal codes of vectors E7 to E15. -/
def illegalCodes : List Code := [
  0xFFFF, 0x0008, 0x0010, 0x0018, 0x0068, 0x0088, 0x00A0, 0x00C0, 0x0021, 0x0041, 0x0009, 0x00A1,
  0x00B9, 0x000A, 0x0012, 0x000B, 0x0083, 0x008C, 0x0094, 0x009C, 0x00A4, 0x00F4, 0x000D, 0x0055,
  0x005D, 0x00F5, 0x000E, 0x001E, 0x0026, 0x0086, 0x000F, 0x0047, 0x008F, 0x00FF, 0x0100, 0x0120,
  0x8006]

/-- E7 to E15: rejected by name, by the exact match and by the decoder of R95. -/
theorem test_illegal_codes_are_rejected :
    ∀ code ∈ illegalCodes, opcodeRow code = none ∧
      decodeSubfields code 0 0 0 = .error (.illegalCode code) := by
  simp only [illegalCodes, List.forall_mem_cons]
  exact ⟨⟨rfl, rfl⟩, ⟨rfl, rfl⟩, ⟨rfl, rfl⟩, ⟨rfl, rfl⟩, ⟨rfl, rfl⟩, ⟨rfl, rfl⟩, ⟨rfl, rfl⟩, ⟨rfl, rfl⟩, ⟨rfl, rfl⟩, ⟨rfl, rfl⟩, ⟨rfl, rfl⟩, ⟨rfl, rfl⟩, ⟨rfl, rfl⟩, ⟨rfl, rfl⟩, ⟨rfl, rfl⟩, ⟨rfl, rfl⟩, ⟨rfl, rfl⟩, ⟨rfl, rfl⟩, ⟨rfl, rfl⟩, ⟨rfl, rfl⟩, ⟨rfl, rfl⟩, ⟨rfl, rfl⟩, ⟨rfl, rfl⟩, ⟨rfl, rfl⟩, ⟨rfl, rfl⟩, ⟨rfl, rfl⟩, ⟨rfl, rfl⟩, ⟨rfl, rfl⟩, ⟨rfl, rfl⟩, ⟨rfl, rfl⟩, ⟨rfl, rfl⟩, ⟨rfl, rfl⟩, ⟨rfl, rfl⟩, ⟨rfl, rfl⟩, ⟨rfl, rfl⟩, ⟨rfl, rfl⟩, ⟨rfl, rfl⟩, by simp⟩

/-- E16: 45 legal codes, no two the same (R94). -/
theorem test_legal_codes_are_45_and_distinct :
    opcodeTable.length = 45 ∧ (opcodeTable.map OpcodeRow.code).Nodup := by decide +kernel

/-- R102 and P1 to P3 of the programs: words the encoder writes. -/
theorem test_encode_writes_the_words_of_the_spec :
    encode (.ldHAbs 12) = 0x002800000000000C ∧ encode (.jmpJeqK 0 3 0x800) = 0x0015000300000800 ∧
      encode (.jmpJsetK 4 0 0x1FFF) = 0x0045040000001FFF ∧ encode (.jmpJa 4) = 0x0005000000000004 ∧
      encode (.stx 2) = 0x0003000000000002 ∧ encode .aluMulX = 0x002C000000000000 ∧
      encode .miscTax = 0x0007000000000000 ∧ encode .retA = 0x0016000000000000 := by decide

/-- The opcode table's numbering: bit 0 is the word's least significant bit. -/
theorem test_table_numbering :
    decodeTableWord 64 0x0028A53C0000000C = some (.ldHAbs 12) ∧
      decodeTableWord 64 0xFFFF000000000000 = none := ⟨rfl, rfl⟩

/-! ## Small states -/

/-- The packet PKT16 of 95_test_vectors.md. -/
def pkt16 : List Byte := [
  0x00, 0x11, 0x22, 0x33, 0x44, 0x55, 0x66, 0x77, 0x88, 0x99, 0xAA, 0xBB, 0x08, 0x00, 0x45, 0xC0]

/-- The inputs of a run on PKT16, its program still to be loaded. -/
def inputs16 : RunInputs where
  prog := []
  progLen := 12
  storage := Memory.ofList 0 pkt16
  bufBase := 0
  byteOrder := .big
  wireLen := 60
  capLen := 16

/-- A run in progress on PKT16 with the given registers. -/
def running (pc a x : Word) : State := { State.reset with pc := pc, a := a, x := x, inputs := inputs16 }

/-- A field of the next state, none where a step answers none. -/
def after {α : Type} (o : Result) (view : State → α) : Option α :=
  match o with
  | .next t => some (view t)
  | .fault _ => none
  | .refused _ => none

/-- The step that runs the given word. -/
def runs (s : State) (w : Nat) : Result := step (s.withFetchWord 64 w)

/-- `STATUS` and the outcome of a next state. -/
def ports (t : State) : Status × RunOutcome := (t.status, t.outcome)

/-- The ports after a bounds reject. -/
def boundsReject : Option (Status × RunOutcome) := some (.doneRejectBounds, .verdict 0)

/-! ## One step per vector of 95_test_vectors.md -/

/-- L1, L3, L10. -/
theorem test_ld_w_abs :
    after (runs (running 0 0 0) 0x002000000000000C) (fun t => (t.a, t.pc)) = some (0x080045C0, 1) ∧
    after (runs (running 0 0 0) 0x002000000000000D) ports = boundsReject ∧
    after (runs (running 0 0 0) 0x00200000FFFFFFFF) ports = boundsReject := by
  decide

/-- L2 (D11). -/
theorem test_ld_w_abs_little :
    after (runs { running 0 0 0 with inputs := { inputs16 with byteOrder := .little } }
      0x002000000000000C) (fun t => t.a) = some 0xC0450008 := by
  decide

/-- L5, L6, L7. -/
theorem test_ld_h_abs :
    after (runs (running 0 0 0) 0x002800000000000E) (fun t => (t.a, t.pc)) = some (0x45C0, 1) ∧
    after (runs (running 0 0 0) 0x002800000000000F) ports = boundsReject ∧
    after (runs (running 0 0 0) 0x002800000000000A) (fun t => (t.a, t.pc)) = some (0xAABB, 1) := by
  decide

/-- L8, L9. -/
theorem test_ld_b_abs :
    after (runs (running 0 0 0) 0x003000000000000F) (fun t => (t.a, t.pc)) = some (0xC0, 1) ∧
    after (runs (running 0 0 0) 0x0030000000000010) ports = boundsReject := by
  decide

/-- L11, L12. -/
theorem test_ld_w_ind :
    after (runs (running 0 0 2) 0x004000000000000A) (fun t => (t.a, t.pc)) = some (0x080045C0, 1) ∧
    after (runs (running 0 0 0xFFFFFFFFFFFFFFFF) 0x0040000000000002) ports = boundsReject := by
  decide

/-- L13, and one byte further. -/
theorem test_ld_h_ind :
    after (runs (running 0 0 14) 0x0048000000000000) (fun t => (t.a, t.pc)) = some (0x45C0, 1) ∧
    after (runs (running 0 0 15) 0x0048000000000000) ports = boundsReject := by
  decide

/-- L15, L14. -/
theorem test_ld_b_ind :
    after (runs (running 0 0 4) 0x0050000000000001) (fun t => (t.a, t.pc)) = some (0x55, 1) ∧
    after (runs (running 0 0 0x100000000) 0x0050000000000000) ports = boundsReject := by
  decide

/-- L16. -/
theorem test_ld_w_len :
    after (runs (running 0 7 0) 0x0080000000000000) (fun t => (t.a, t.pc)) = some (60, 1) := by
  decide

/-- L18, L19. -/
theorem test_ld_w_imm :
    after (runs (running 0 0 0) 0x00000000FFFFFFFF) (fun t => (t.a, t.pc)) = some (0xFFFFFFFF, 1) ∧
    after (runs (running 0 0xFFFFFFFFFFFFFFFF 0) 0x0000000000000000) (fun t => (t.a, t.pc)) = some (0, 1) := by
  decide

/-- L20, L22 (the fault of F3 at `pc` 0). -/
theorem test_ld_w_mem :
    after (runs ((running 0 0 0).setSlot 3 0x123456789A) 0x0060000000000003) (fun t => t.a) =
      some 0x123456789A ∧
    after (runs (running 0 0 0) 0x0060000000000010) ports = 
      some (.faultIndexMem, .fault ⟨.scratchIndex, 0x0060, 0, 16⟩) := by
  decide

/-- L23. -/
theorem test_ldx_w_imm :
    after (runs (running 0 0 0) 0x000100000000000E) (fun t => (t.x, t.pc)) = some (14, 1) := by
  decide

/-- L24, L30. -/
theorem test_ldx_w_mem :
    after (runs ((running 0 0 0).setSlot 0 7) 0x0061000000000000) (fun t => (t.x, t.a)) = some (7, 0) ∧
    after (runs (running 0 0 0) 0x00610000FFFFFFFF) ports = 
      some (.faultIndexMem, .fault ⟨.scratchIndex, 0x0061, 0, 0xFFFFFFFF⟩) := by
  decide

/-- L25. -/
theorem test_ldx_w_len :
    after (runs (running 0 0 0) 0x0081000000000000) (fun t => (t.x, t.pc)) = some (60, 1) := by
  decide

/-- L26, L27, L28, L29 (S6). -/
theorem test_ldx_b_msh :
    after (runs (running 0 0 0) 0x00B100000000000E) (fun t => (t.x, t.pc)) = some (0x14, 1) ∧
    after (runs (running 0 0 0) 0x00B1000000000010) ports = boundsReject ∧
    after (runs (running 0 0 0) 0x00B100000000000F) (fun t => (t.x, t.pc)) = some (0, 1) ∧
    after (runs (running 0 0 0) 0x00B100000000000B) (fun t => (t.x, t.pc)) = some (0x2C, 1) := by
  decide

/-- T1, T3. -/
theorem test_st :
    after (runs (running 0 0x100000000 0) 0x0002000000000005) (fun t => (t.slot 5, t.slot 4, t.pc)) =
      some (0x100000000, 0, 1) ∧
    after (runs (running 0 9 0) 0x0002000000000010) ports = 
      some (.faultIndexMem, .fault ⟨.scratchIndex, 0x0002, 0, 16⟩) := by
  decide

/-- T2, T4. -/
theorem test_stx :
    after (runs (running 0 0 20) 0x000300000000000F) (fun t => (t.slot 15, t.slot 14, t.pc)) =
      some (20, 0, 1) ∧
    after (runs (running 0 0 9) 0x0003000010000000) ports = 
      some (.faultIndexMem, .fault ⟨.scratchIndex, 0x0003, 0, 0x10000000⟩) := by
  decide

/-- J1, J2, J3. -/
theorem test_jmp_ja :
    after (runs (running 11 0 0) 0x0005000000000004) (fun t => t.pc) = some 4 ∧
    after (runs (running 0 0 0) 0x0005000000000000) (fun t => t.pc) = some 0 ∧
    after (runs (running 3 0 0) 0x0005000000000004) (fun t => t.pc) = some 4 := by
  decide

/-- J4, J5, J6. -/
theorem test_jmp_jeq_k :
    after (runs (running 1 0x800 0) 0x0015000300000800) (fun t => t.pc) = some 2 ∧
    after (runs (running 1 0x806 0) 0x0015000300000800) (fun t => t.pc) = some 5 ∧
    after (runs (running 1 0x100000800 0) 0x0015000300000800) (fun t => t.pc) = some 5 := by
  decide

/-- J17, J18. -/
theorem test_jmp_jeq_k_longest :
    after (runs (running 0 0 0) 0x0015050000000000) (fun t => t.pc) = some 6 ∧
    after (runs (running 4 1 0) 0x0015FF0000000001) (fun t => t.pc) = some 260 := by
  decide

/-- J7, J8, J9. -/
theorem test_jmp_jgt_k :
    after (runs (running 7 1500 0) 0x00250200000005DC) (fun t => t.pc) = some 8 ∧
    after (runs (running 7 1501 0) 0x00250200000005DC) (fun t => t.pc) = some 10 ∧
    after (runs (running 7 0xFFFFFFFFFFFFFFFF 0) 0x00250200000005DC) (fun t => t.pc) = some 10 := by
  decide

/-- J10, and below `k`. -/
theorem test_jmp_jge_k :
    after (runs (running 0 0 0) 0x0035010000000000) (fun t => t.pc) = some 2 ∧
    after (runs (running 0 4 0) 0x0035010000000005) (fun t => t.pc) = some 1 := by
  decide

/-- J11, J12. -/
theorem test_jmp_jset_k :
    after (runs (running 5 0x2000 0) 0x0045040000001FFF) (fun t => t.pc) = some 6 ∧
    after (runs (running 5 0x2001 0) 0x0045040000001FFF) (fun t => t.pc) = some 10 := by
  decide

/-- J13, and unequal. -/
theorem test_jmp_jeq_x :
    after (runs (running 3 0x100000000 0x100000000) 0x001D010000000000) (fun t => t.pc) = some 5 ∧
    after (runs (running 3 0x100000000 0) 0x001D010000000000) (fun t => t.pc) = some 4 := by
  decide

/-- J14, and above. -/
theorem test_jmp_jgt_x :
    after (runs (running 2 5 9) 0x002D000100000000) (fun t => t.pc) = some 4 ∧
    after (runs (running 2 10 9) 0x002D000100000000) (fun t => t.pc) = some 3 := by
  decide

/-- J15, and below. -/
theorem test_jmp_jge_x :
    after (runs (running 2 9 9) 0x003D030000000000) (fun t => t.pc) = some 6 ∧
    after (runs (running 2 8 9) 0x003D030000000000) (fun t => t.pc) = some 3 := by
  decide

/-- J16, and no common bit. -/
theorem test_jmp_jset_x :
    after (runs (running 0 0x8000000000000000 0xFFFFFFFF00000000) 0x004D010000000000) (fun t => t.pc) = some 2 ∧
    after (runs (running 0 0x80 0x7F) 0x004D010000000000) (fun t => t.pc) = some 1 := by
  decide

/-- A1, A2. -/
theorem test_alu_add_k :
    after (runs (running 0 0xFFFFFFFF 0) 0x0004000000000001) (fun t => (t.a, t.pc)) = some (0x100000000, 1) ∧
    after (runs (running 0 0xFFFFFFFFFFFFFFFF 0) 0x0004000000000001) (fun t => (t.a, t.pc)) = some (0, 1) := by
  decide

/-- A3. -/
theorem test_alu_add_x :
    after (runs (running 0 14 20) 0x000C000000000000) (fun t => (t.a, t.pc)) = some (34, 1) := by
  decide

/-- A4, A5. -/
theorem test_alu_sub_k :
    after (runs (running 0 3 0) 0x0014000000000001) (fun t => (t.a, t.pc)) = some (2, 1) ∧
    after (runs (running 0 0 0) 0x0014000000000001) (fun t => (t.a, t.pc)) = some (0xFFFFFFFFFFFFFFFF, 1) := by
  decide

/-- A6. -/
theorem test_alu_sub_x :
    after (runs (running 0 5 7) 0x001C000000000000) (fun t => (t.a, t.pc)) = some (0xFFFFFFFFFFFFFFFE, 1) := by
  decide

/-- A7. -/
theorem test_alu_mul_k :
    after (runs (running 0 0xFFFFFFFF 0) 0x00240000FFFFFFFF) (fun t => (t.a, t.pc)) = some (0xFFFFFFFE00000001, 1) := by
  decide

/-- A8, A9. -/
theorem test_alu_mul_x :
    after (runs (running 0 0x100000000 0x100000000) 0x002C000000000000) (fun t => (t.a, t.pc)) = some (0, 1) ∧
    after (runs (running 0 6 7) 0x002C000000000000) (fun t => (t.a, t.pc)) = some (42, 1) := by
  decide

/-- A10, A11, A12. -/
theorem test_alu_div_k :
    after (runs (running 0 20 0) 0x0034000000000004) (fun t => (t.a, t.pc)) = some (5, 1) ∧
    after (runs (running 0 3 0) 0x0034000000000004) (fun t => (t.a, t.pc)) = some (0, 1) ∧
    after (runs (running 0 20 0) 0x0034000000000000) ports = some (.doneRejectDivzero, .verdict 0) := by
  decide

/-- A14 (`A` and `pc` not written), A15, A16. -/
theorem test_alu_div_x :
    after (runs (running 0 100 0) 0x003C000000000000) (fun t => (t.a, t.pc)) = some (100, 0) ∧
    after (runs (running 0 0xFFFFFFFFFFFFFFFF 2) 0x003C000000000000) (fun t => (t.a, t.pc)) = some (0x7FFFFFFFFFFFFFFF, 1) ∧
    after (runs (running 0 100 0x100000000) 0x003C000000000000) (fun t => (t.a, t.pc)) = some (0, 1) := by
  decide

/-- A17. -/
theorem test_alu_or_k :
    after (runs (running 0 0x0F00 0) 0x00440000000000F0) (fun t => (t.a, t.pc)) = some (0x0FF0, 1) := by
  decide

/-- A18. -/
theorem test_alu_or_x :
    after (runs (running 0 0x100000000 1) 0x004C000000000000) (fun t => (t.a, t.pc)) = some (0x100000001, 1) := by
  decide

/-- A19, A20. -/
theorem test_alu_and_k :
    after (runs (running 0 0x45 0) 0x005400000000000F) (fun t => (t.a, t.pc)) = some (5, 1) ∧
    after (runs (running 0 0xFFFFFFFFFFFFFFFF 0) 0x00540000FFFFFFFF) (fun t => (t.a, t.pc)) = some (0xFFFFFFFF, 1) := by
  decide

/-- A21. -/
theorem test_alu_and_x :
    after (runs (running 0 0xFF0F 0x0FF0) 0x005C000000000000) (fun t => (t.a, t.pc)) = some (0x0F00, 1) := by
  decide

/-- A24, A25, A26. -/
theorem test_alu_lsh_k :
    after (runs (running 0 1 0) 0x006400000000003F) (fun t => (t.a, t.pc)) = some (0x8000000000000000, 1) ∧
    after (runs (running 0 3 0) 0x0064000000000040) (fun t => (t.a, t.pc)) = some (3, 1) ∧
    after (runs (running 0 3 0) 0x0064000000000041) (fun t => (t.a, t.pc)) = some (6, 1) := by
  decide

/-- A27, A28. -/
theorem test_alu_lsh_x :
    after (runs (running 0 1 40) 0x006C000000000000) (fun t => (t.a, t.pc)) = some (0x10000000000, 1) ∧
    after (runs (running 0 1 0x100000004) 0x006C000000000000) (fun t => (t.a, t.pc)) = some (16, 1) := by
  decide

/-- A30, A32. -/
theorem test_alu_rsh_k :
    after (runs (running 0 0x8000000000000000 0) 0x007400000000003F) (fun t => (t.a, t.pc)) = some (1, 1) ∧
    after (runs (running 0 0xF0 0) 0x0074000000000040) (fun t => (t.a, t.pc)) = some (0xF0, 1) := by
  decide

/-- A31. -/
theorem test_alu_rsh_x :
    after (runs (running 0 0xFFFFFFFFFFFFFFFF 60) 0x007C000000000000) (fun t => (t.a, t.pc)) = some (0xF, 1) := by
  decide

/-- A33, A34, A35. -/
theorem test_alu_neg :
    after (runs (running 0 20 0) 0x0084000000000000) (fun t => (t.a, t.pc)) = some (0xFFFFFFFFFFFFFFEC, 1) ∧
    after (runs (running 0 0 0) 0x0084000000000000) (fun t => (t.a, t.pc)) = some (0, 1) ∧
    after (runs (running 0 0x8000000000000000 0) 0x0084000000000000) (fun t => (t.a, t.pc)) = some (0x8000000000000000, 1) := by
  decide

/-- M3. -/
theorem test_misc_tax :
    after (runs (running 0 0x100000000 3) 0x0007000000000000) (fun t => (t.x, t.a)) =
      some (0x100000000, 0x100000000) := by
  decide

/-- M2. -/
theorem test_misc_txa :
    after (runs (running 0 7 0xFFFFFFFFFFFFFFFF) 0x0087000000000000) (fun t => (t.a, t.x)) =
      some (0xFFFFFFFFFFFFFFFF, 0xFFFFFFFFFFFFFFFF) := by
  decide

/-- V1, V3. -/
theorem test_ret_k :
    after (runs (running 0 123 0) 0x0006000000040000) ports = some (.doneReturn, .verdict 0x40000) ∧
    after (runs (running 0 123 0) 0x00060000FFFFFFFF) ports = some (.doneReturn, .verdict 0xFFFFFFFF) := by
  decide

/-- V4. -/
theorem test_ret_a :
    after (runs (running 0 0x100000000 0) 0x0016000000000000) ports = some (.doneReturn, .verdict 0x100000000) := by
  decide

/-! ## Faults and halts -/

/-- F1, and what the caller gets. -/
theorem test_illegal_code :
    after (runs (running 1 0 0) 0xFFFF000000000000) ports = some (.faultIllegal, .fault ⟨.illegal, 0xFFFF, 1, 0⟩) ∧
    after (runs (running 1 0 0) 0xFFFF000000000000) State.callerSees =
      some (some (.illegalInstruction 0xFFFF 1)) := by
  decide

/-- F2, F4, F7: the fetch check comes before the word is looked at. -/
theorem test_fetch_outside :
    after (step { running 1 0 0 with inputs := { inputs16 with progLen := 1 } }) ports =
      some (.faultIndexPc, .fault ⟨.fetchIndex, 0, 1, 1⟩) ∧
    after (step State.reset) ports = some (.faultIndexPc, .fault ⟨.fetchIndex, 0, 0, 0⟩) ∧
    after (step { running 2 0 0 with
        inputs := { inputs16 with progLen := 2, prog := [(2, 0xFFFF000000000000)] } }) ports =
      some (.faultIndexPc, .fault ⟨.fetchIndex, 0, 2, 2⟩) := by
  decide

/-- 10_state.md R31, R33, R29: the numeric codes of the ports. -/
theorem test_port_codes :
    [Status.idle, .running, .doneReturn, .doneRejectBounds, .doneRejectDivzero, .faultIllegal,
      .faultIndexPc, .faultIndexMem].map Status.bits = [0, 1, 2, 3, 4, 5, 6, 7] ∧
    [FaultKind.illegal, .fetchIndex, .scratchIndex].map FaultKind.bits = [0, 1, 2] ∧
    [ByteOrder.big, .little].map ByteOrder.bit = [0, 1] := by
  decide

/-! ## States that meet the hypotheses of the statements -/

/-- The program `LD W ABS k=12; RET A` at `pc` 0 on PKT16. -/
def demo : State := { running 0 0 0 with inputs := inputs16.withInstrs [.ldWAbs 12, .retA] }

/-- The engine after that program: halted with `Return(0x080045C0)`, no launch to come. -/
def halted : State := { demo with a := 0x080045C0, pc := 1 }.haltReturn 0x080045C0

/-- The word at an index of the program of `demo`, and the instruction it decodes to. -/
theorem demo_words (idx : Nat) (h : idx < 2) :
    (idx = 0 ∧ Memory.read demo.inputs.prog idx = some (encode (.ldWAbs 12)) ∧
      decode (encode (.ldWAbs 12)) = .ok (.ldWAbs 12)) ∨
    (idx = 1 ∧ Memory.read demo.inputs.prog idx = some (encode .retA) ∧
      decode (encode .retA) = .ok .retA) := by
  rcases (by omega : idx = 0 ∨ idx = 1) with rfl | rfl
  · exact .inl ⟨rfl, rfl, rfl⟩
  · exact .inr ⟨rfl, rfl, rfl⟩

/-- R262 duty 1 holds of `demo` (statements RunningEngineIsNeverStuck, ForwardProgramEnds). -/
theorem test_witness_program_loaded : demo.status = .running ∧ ProgramLoaded demo.inputs := by
  refine ⟨rfl, fun idx h => ?_⟩
  rcases demo_words idx h with ⟨-, h, -⟩ | ⟨-, h, -⟩ <;> exact ⟨_, h⟩

/-- R263 holds of `demo` (statements SoundProgramNeverFaults, WellFormedInstrsAreSoundProgram). -/
theorem test_witness_program_sound :
    demo.status = .running ∧ demo.pc.toNat < demo.inputs.progLen.toNat ∧
      ProgramSound demo.inputs ∧ demo.launches = [] ∧
      programWellFormed [.ldWAbs 12, .retA] = true := by
  refine ⟨rfl, by decide, ⟨by decide, fun idx h => ?_⟩, rfl, by decide⟩
  rcases demo_words idx h with ⟨rfl, hr, hd⟩ | ⟨rfl, hr, hd⟩
  · exact ⟨_, _, hr, hd, rfl, rfl⟩
  · exact ⟨_, _, hr, hd, rfl, rfl⟩

/-- `demo` can close no loop, and its first step goes on (statements ForwardStepIncreasesPc,
ForwardProgramEnds). -/
theorem test_witness_program_forward :
    demo.status = .running ∧ demo.pc = 0 ∧ ProgramForward demo.inputs ∧ demo.launches = [] ∧
      ∃ t, step demo = .next t ∧ t.status = .running := by
  refine ⟨rfl, rfl, fun idx w i h hw hd => ?_, rfl, _, rfl, rfl⟩
  rcases demo_words idx h with ⟨rfl, hr, hd'⟩ | ⟨rfl, hr, hd'⟩ <;>
    · cases hr.symm.trans hw
      cases hd'.symm.trans hd
      rfl

/-- A fetched, decoded and completed instruction (statements StepRunsDecodedInstruction,
SuccessorsAreKnownFromTheInstruction, RunInputsAreConstant). -/
theorem test_witness_fetched :
    demo.status = .running ∧ demo.pc.toNat < demo.inputs.progLen.toNat ∧
      Memory.read demo.inputs.prog demo.pc.toNat = some 0x002000000000000C ∧
      decode 0x002000000000000C = .ok (.ldWAbs 12) ∧
      ∃ t, step demo = .next t ∧ t.status = .running := ⟨rfl, by decide, rfl, rfl, _, rfl, rfl⟩

/-- The two ways into a branch target: `A = k` and `A ≠ k` from one instruction (statement
SuccessorsAreKnownFromTheInstruction). -/
theorem test_witness_both_branches :
    (Instr.jmpJeqK 255 3 7).successors 4 = [260, 8] ∧
      after (exec (.jmpJeqK 255 3 7) (running 4 7 0)) (fun t => t.pc) = some 260 ∧
      after (exec (.jmpJeqK 255 3 7) (running 4 8 0)) (fun t => t.pc) = some 8 := by decide

/-- A word the table's numbering decodes (statement LoadedWordIsRunNext). -/
theorem test_witness_table_word : decodeTableWord 64 0x0016000000000000 = some .retA := rfl

/-- A decoded word with ignored fields that are not 0 (statement EncodeOfDecodeZeroesUnusedFields). -/
theorem test_witness_ignored_fields :
    decode 0x0007FFFFFFFFFFFF = .ok .miscTax ∧ encode .miscTax = 0x0007000000000000 := ⟨rfl, rfl⟩

/-- A legal and an illegal code (statement DecodingMatchesOpcodeMapExactly). -/
theorem test_witness_legal_and_illegal :
    (codeField 0x0016000000000000, "RET A") ∈ Rules.opcodeMap ∧
      codeField 0x00FF000000000000 ∉ Rules.opcodeMap.map Prod.fst := by
  decide +kernel

/-- A program whose first word is illegal, and no launch to come (statement IllegalCodeFaults). -/
theorem test_witness_illegal_word :
    let s := (running 0 0 0).withFetchWord 64 0xFFFF000000000000
    s.status = .running ∧ s.pc.toNat < s.inputs.progLen.toNat ∧
      Memory.read s.inputs.prog s.pc.toNat = some 0xFFFF000000000000 ∧
      codeField 0xFFFF000000000000 ∉ Rules.opcodeMap.map Prod.fst ∧ s.launches = [] := by
  refine ⟨rfl, by decide, rfl, ?_, rfl⟩
  decide +kernel

/-- `pc = PROGLEN`, the boundary (statement FetchOutsideProgramFaults). -/
theorem test_witness_fetch_outside :
    (running 12 0 0).status = .running ∧
      (running 12 0 0).inputs.progLen.toNat ≤ (running 12 0 0).pc.toNat ∧
      ¬ (running 11 0 0).inputs.progLen.toNat ≤ (running 11 0 0).pc.toNat := by decide

/-- A step that ends the run, by a verdict and by a fault (statement EndingWritesOnlyOutcomePorts). -/
theorem test_witness_endings :
    after (runs (running 0 5 0) 0x0016000000000000) (fun t => (t.status.isVerdict, t.launches.length)) =
      some (true, 0) ∧
    after (runs (running 0 5 0) 0xFFFF000000000000) (fun t => (t.status.isFault, t.launches.length)) =
      some (true, 0) := by decide

/-- A launch of the longest program and one that is longer by 1 (statements
StartInitialisesEverything, StartTakesTheNextLaunch, OverlongLaunchIsRefused). -/
theorem test_witness_launches :
    let longest : RunInputs := { inputs16 with progLen := 0x100000000 }
    let overlong : RunInputs := { inputs16 with progLen := 0x100000001 }
    let waiting (r : RunInputs) : State := { halted with launches := [r] }
    (waiting longest).status ≠ .running ∧ longest.progLen.toNat ≤ 2 ^ 32 ∧
      2 ^ 32 < overlong.progLen.toNat ∧
      after (step (waiting longest)) (fun t => (t.a, t.slot 3, t.status, t.launches.length)) =
        some (0, 0, .running, 0) ∧
      step (waiting overlong) = .refused (.launchTooLong 0x100000001) :=
  ⟨by decide, by decide, by decide, by decide, rfl⟩

/-- A packet byte the host presented (statement StartTakesTheNextLaunch). -/
theorem test_witness_presented_byte :
    Memory.read inputs16.storage (inputs16.bufBase.toNat + 14) = some 0x45 := rfl

/-- An instruction that is neither of the two length loads (statement LengthLoads). -/
theorem test_witness_no_length_load :
    Instr.ldWImm 7 ≠ .ldWLen ∧ Instr.ldWImm 7 ≠ .ldxWLen := by decide

/-- An engine that is not running and has no launch to come (statement IdleEngineDoesNothing). -/
theorem test_witness_idle :
    halted.status ≠ .running ∧ halted.launches = [] ∧ step halted = .next halted :=
  ⟨by decide, rfl, rfl⟩

/-- Packet reads that end at `CAPLEN` and one byte beyond it (statements AbsoluteLoadsReadPacket,
HeaderLengthLoad). -/
theorem test_witness_absolute_bounds :
    (12 : Imm).toNat + Size.w.bytes = inputs16.capLen.toNat ∧
      inputs16.capLen.toNat < (13 : Imm).toNat + Size.w.bytes ∧
      (14 : Imm).toNat + Size.h.bytes = inputs16.capLen.toNat ∧
      inputs16.capLen.toNat < (15 : Imm).toNat + Size.h.bytes ∧
      (15 : Imm).toNat + Size.b.bytes = inputs16.capLen.toNat ∧
      inputs16.capLen.toNat < (16 : Imm).toNat + Size.b.bytes := by decide

/-- The same for `X + k` (statement IndexedLoadsReadPacket). -/
theorem test_witness_indexed_bounds :
    (running 0 0 2).x.toNat + (10 : Imm).toNat + Size.w.bytes = inputs16.capLen.toNat ∧
      inputs16.capLen.toNat < (running 0 0 2).x.toNat + (11 : Imm).toNat + Size.w.bytes ∧
      (running 0 0 4).x.toNat + (10 : Imm).toNat + Size.h.bytes = inputs16.capLen.toNat ∧
      inputs16.capLen.toNat < (running 0 0 5).x.toNat + (10 : Imm).toNat + Size.h.bytes ∧
      (running 0 0 15).x.toNat + (0 : Imm).toNat + Size.b.bytes = inputs16.capLen.toNat ∧
      inputs16.capLen.toNat < (running 0 0 16).x.toNat + (0 : Imm).toNat + Size.b.bytes := by decide

/-- `X = 2^32`, the boundary (statement HugeIndexNeverWraps). -/
theorem test_witness_huge_index : 2 ^ 32 ≤ (running 0 0 0x100000000).x.toNat := by decide

/-- Loads that complete, with the largest values of their size (statement PacketLoadsZeroExtend). -/
theorem test_witness_packet_loads_complete :
    let s : State := { running 0 0 0 with
      inputs := { inputs16 with storage := Memory.ofList 0 [0xFF, 0xFF, 0xFF, 0xFF], capLen := 4 } }
    s.status = .running ∧
      after (exec (.ldWAbs 0) s) (fun t => (t.a, t.status)) = some (0xFFFFFFFF, .running) ∧
      after (exec (.ldHInd 2) s) (fun t => (t.a, t.status)) = some (0xFFFF, .running) ∧
      after (exec (.ldBAbs 3) s) (fun t => (t.a, t.status)) = some (0xFF, .running) ∧
      after (exec (.ldxBMsh 3) s) (fun t => (t.x, t.status)) = some (60, .running) := by decide

/-- The last slot and the first index beyond it (statements ScratchLoads, StoresWriteOneSlot,
StoreThenLoadReturnsValue). -/
theorem test_witness_slots :
    (15 : Fin 16).val = (15 : Imm).toNat ∧ (15 : Imm).toNat < 16 ∧ 16 ≤ (16 : Imm).toNat := by decide

/-- A zero divisor and the divisor 1 (statement DivisionOrReject). -/
theorem test_witness_divisors :
    (0 : Imm).toNat = 0 ∧ (1 : Imm).toNat ≠ 0 ∧ (running 0 9 0).x.toNat = 0 ∧
      (running 0 9 1).x.toNat ≠ 0 := by decide

/-- A condition that holds and one that does not, for each kind (statements ComparingJumpsImmediate,
ComparingJumpsIndex, BitTestJumps). -/
theorem test_witness_conditions :
    let s := running 0 9 9
    s.a.toNat = s.x.toNat ∧ ¬ s.a.toNat > s.x.toNat ∧ s.a.toNat ≥ s.x.toNat ∧
      s.a.toNat > (8 : Imm).toNat ∧ ¬ s.a.toNat = (8 : Imm).toNat ∧ ¬ s.a.toNat ≥ (10 : Imm).toNat ∧
      s.a.toNat &&& (8 : Imm).toNat ≠ 0 ∧ ¬ s.a.toNat &&& (6 : Imm).toNat ≠ 0 := by decide

/-- A running state, a verdict and a fault with the machine's invariant (statements StepKeepsInvariant,
FaultIsNeverAVerdict); the running one has a next state. -/
theorem test_witness_invariant :
    Inv demo ∧ Inv halted ∧ Inv State.reset.raiseIndexPc ∧ ∃ t, step demo = .next t := by
  have hp : Memory.wf demo.inputs.prog := (Memory.wf_ofList _ 0).1
  have hs : Memory.wf demo.inputs.storage := (Memory.wf_ofList _ 0).1
  exact ⟨⟨hp, hs, by simp [demo, running, State.reset], by decide, fun _ => by decide, rfl⟩,
    ⟨hp, hs, by simp [halted, demo, running, State.reset, State.haltReturn, State.endRun], by decide,
      fun _ => by decide, _, rfl⟩,
    ⟨Memory.wf_nil, Memory.wf_nil, by simp [State.reset, State.raiseIndexPc, State.endRun],
      by decide, fun _ => by decide, rfl, by decide⟩, _, rfl⟩

/-- The launches of the power-on engine in canonical form (statement InvariantHoldsAtReset). -/
theorem test_witness_launches_in_form :
    ∀ r ∈ [inputs16], Memory.wf r.prog ∧ Memory.wf r.storage := by
  simp only [List.mem_singleton, forall_eq]
  exact ⟨Memory.wf_nil, (Memory.wf_ofList _ 0).1⟩

/-- Instructions that leave `A`, `X` and the slots alone, and one that completes (statement
AccessTableWrites). -/
theorem test_witness_unwritten_columns :
    Column.a ∉ writeColumns .miscTax ∧ Column.x ∉ writeColumns .aluNeg ∧
      Column.slots ∉ writeColumns .retA ∧ after (exec .miscTax (running 0 3 4)) (fun t => t.a) = some 3 :=
  by decide

/-- Two states that agree in what `ADD K` reads and differ in what it does not (statement
AccessTableReads). -/
theorem test_witness_agreeing_states :
    let s := running 0 7 1
    let s' := (running 0 7 2).setSlot 3 9
    (∃ t t', exec (.aluAddK 5) s = .next t ∧ exec (.aluAddK 5) s' = .next t') ∧ s.pc = s'.pc ∧
      s.status = .running ∧ s'.status = .running ∧ s.outcome = s'.outcome ∧
      (∀ c ∈ readColumns (.aluAddK 5), AgreeIn s s' c) ∧ s.x ≠ s'.x :=
  ⟨⟨_, _, rfl, rfl⟩, rfl, rfl, rfl, rfl, by simp [readColumns, AgreeIn, running], by decide⟩

/-- A `JA` to its own index (statement SelfJumpNeverEnds; P5d). -/
theorem test_witness_self_jump :
    let s := (running 4 0 0).withFetchWord 64 0x0005000000000004
    s.status = .running ∧ s.pc.toNat = (4 : Imm).toNat ∧
      (4 : Imm).toNat < s.inputs.progLen.toNat ∧
      Memory.read s.inputs.prog (4 : Imm).toNat = some (makeWord 0x0005 0 0 4) :=
  ⟨rfl, by decide, by decide, rfl⟩

/-- The same packet at storage position 100, with other bytes around it (statement
OnlyCapturedBytesMatter; S1). -/
theorem test_witness_same_capture :
    SameCapture demo { demo with inputs := { demo.inputs with
      storage := Memory.ofList 99 (0xEE :: pkt16 ++ [0xDD]), bufBase := 100 } } :=
  ⟨rfl, by decide⟩

/-- Every captured byte is presented, and two engines that are not running differ (statement
RunsShareNothing). -/
theorem test_witness_packet_presented :
    PacketPresented inputs16 ∧ halted.status ≠ .running ∧
      halted.hardwareReset.status ≠ .running ∧ halted.status ≠ halted.hardwareReset.status := by
  refine ⟨fun off h => Option.isSome_iff_exists.mp ?_, by decide, by decide, by decide⟩
  revert off
  decide

/-- `execute` gives a verdict within 3 steps of the launch, and none within 1 (statement
RunsShareNothing; S1). -/
theorem test_execute :
    execute 3 halted (inputs16.withInstrs [.ldWAbs 12, .retA]) = some (.verdict 0x080045C0) ∧
      execute 1 halted (inputs16.withInstrs [.ldWAbs 12, .retA]) = none := by decide

/-- Two engines under a schedule (statement EnginesRunIndependently). -/
theorem test_witness_schedule :
    (∃ es', runSchedule [0, 1, 0] [demo, demo] = .next es') ∧ [demo, demo][1]? = some demo :=
  ⟨⟨_, rfl⟩, rfl⟩

/-- Every memory operation starts and stays in canonical form: reset, and a write below the others. -/
theorem test_canonical_form :
    Memory.wf State.reset.inputs.prog ∧ Memory.wf State.reset.inputs.storage ∧
      Memory.write (Memory.write [] 5 (7 : Byte)) 2 9 = [(2, 9), (5, 7)] ∧
      Memory.write [(2, (9 : Byte)), (5, 7)] 5 8 = [(2, 9), (5, 8)] :=
  ⟨Memory.wf_nil, Memory.wf_nil, rfl, rfl⟩


end Sys2Proof.Tests
end

/-!
The opcode table against the map copied from 30_encoding.md R93, and the exact match of R94: each
row of the table is the row its code selects, because the codes are distinct.
-/

namespace Sys2Proof.Encoding

open Sys2Proof.Machine.Rules

/-- A row with other operand fields has the same code and mnemonic. -/
theorem build_code_and_mnemonic (jt jf : Count) (k : Imm) :
    ∀ row ∈ opcodeTable, (row.build jt jf k).code = row.code ∧
      (row.build jt jf k).mnemonic = (row.build 0 0 0).mnemonic := by
  simp [opcodeTable, loadRows, storeRows, jumpRows, aluRows, miscRows, returnRows, Instr.code,
    Instr.mnemonic]

theorem opcodeMap_eq_table :
    opcodeMap = opcodeTable.map fun row => (row.code, (row.build 0 0 0).mnemonic) := rfl

theorem opcodeMap_codes : opcodeMap.map Prod.fst = opcodeTable.map OpcodeRow.code := rfl

theorem opcodeMap_codes_nodup : (opcodeMap.map Prod.fst).Nodup := by decide

/-- The exact match finds each row of the table by the row's own code. -/
theorem opcodeRow_of_mem {row : OpcodeRow} (hrow : row ∈ opcodeTable) :
    opcodeRow row.code = some row := by
  cases hfound : opcodeRow row.code with
  | none => exact absurd (List.mem_map_of_mem hrow) (opcodeRow_eq_none_iff.mp hfound)
  | some found =>
    have hnodup : (opcodeTable.map OpcodeRow.code).Nodup := opcodeMap_codes ▸ opcodeMap_codes_nodup
    have hsame : found = row :=
      List.inj_on_of_nodup_map hnodup (opcodeRow_mem hfound) hrow (opcodeRow_code hfound)
    rw [hsame]

theorem decodeFields_of_mem {row : OpcodeRow} (hrow : row ∈ opcodeTable) (jt jf : Count) (k : Imm) :
    decodeFields row.code jt jf k = .ok (row.build jt jf k) := by
  simp [decodeFields, opcodeRow_of_mem hrow]

theorem decodeFields_of_opcodeRow_none {code : Code} (hnone : opcodeRow code = none)
    (jt jf : Count) (k : Imm) : decodeFields code jt jf k = .error (.illegalCode code) := by
  simp [decodeFields, hnone]

/-- Settles O3: the map is the table with its mnemonics, so a legal code selects the row of that
code, and a code outside the map selects none. -/
theorem decodingMatchesOpcodeMapExactly : Obligations.DecodingMatchesOpcodeMapExactly := by
  refine ⟨rfl, opcodeMap_codes_nodup, fun w => ⟨fun name hmem => ?legal, fun hcode => ?illegal⟩⟩
  case legal =>
    rw [opcodeMap_eq_table] at hmem
    obtain ⟨row, hrow, heq⟩ := List.mem_map.mp hmem
    obtain ⟨hcode, hname⟩ := Prod.mk.inj heq
    obtain ⟨hbuildCode, hbuildName⟩ :=
      build_code_and_mnemonic (jtField w) (jfField w) (kField w) row hrow
    refine ⟨row.build (jtField w) (jfField w) (kField w), ?_, hbuildName.trans hname,
      hbuildCode.trans hcode⟩
    rw [decode, ← hcode, decodeFields_of_mem hrow]
  case illegal =>
    rw [opcodeMap_codes] at hcode
    exact decodeFields_of_opcodeRow_none (opcodeRow_eq_none_iff.mpr hcode) _ _ _

end Sys2Proof.Encoding

/-!
The decoder by sub-fields (30_encoding.md R95) against the exact match (R94). Each class of R95
either rejects or, since its masks together fix all 16 bits, answers as the exact match does; and it
accepts every code of the table. The lemmas about one branch of the decoder have the shape of that
branch, so that the proof for a class follows its chain of tests.
-/

namespace Sys2Proof.Encoding

/-! ## The masks cover the code -/

variable {code : Code}

/-- The class (30_encoding.md R87) and the five bits above it are the whole `code` when its upper
byte is 0 (R93). -/
theorem code_eq_of_masks {cls op : Code} (hhigh : code &&& 0xFF00 = 0)
    (hcls : code &&& 0x07 = cls) (hop : code &&& 0xF8 = op) : code = op ||| cls :=
  calc code
    _ = code &&& (0xFF00 ||| (0xF8 ||| 0x07)) := BitVec.and_allOnes.symm
    _ = (code &&& 0xFF00) ||| ((code &&& 0xF8) ||| (code &&& 0x07)) := by
      simp only [BitVec.and_or_distrib_left]
    _ = op ||| cls := by rw [hhigh, hcls, hop]; exact BitVec.zero_or

/-- The source bit is 0 or 8 (R91). -/
theorem source_eq_of_ne_zero (h : code &&& 0x08 ≠ 0) : code &&& 0x08 = 0x08 := by
  have hbit := BitVec.and_twoPow code 3
  split at hbit
  · exact hbit
  · exact absurd hbit h

/-- The operator (R90) and the source bit (R91) make up the five bits above the class. -/
theorem operation_eq_of_operator {op src : Code} (hop : code &&& 0xF0 = op)
    (hsrc : code &&& 0x08 = src) : code &&& 0xF8 = op ||| src :=
  calc code &&& 0xF8
    _ = code &&& (0xF0 ||| 0x08) := rfl
    _ = op ||| src := by rw [BitVec.and_or_distrib_left, hop, hsrc]

/-- The class is one of 8 (R87). -/
theorem class_eq_seven (h0 : code &&& 0x07 ≠ 0) (h1 : code &&& 0x07 ≠ 1) (h2 : code &&& 0x07 ≠ 2)
    (h3 : code &&& 0x07 ≠ 3) (h4 : code &&& 0x07 ≠ 4) (h5 : code &&& 0x07 ≠ 5)
    (h6 : code &&& 0x07 ≠ 6) : code &&& 0x07 = 7 := by
  have hle : (code &&& 0x07).toNat ≤ 7 := by
    rw [BitVec.toNat_and]
    exact Nat.and_le_right
  generalize code &&& 0x07 = cls at *
  bv_omega

/-! ## An answer that rejects or agrees with the exact match -/

/-- The answer is the rejection of this `code`, or what the exact match of R94 answers. -/
def RejectsOrMatches (code : Code) (jt jf : Count) (k : Imm) (answer : Except DecodeError Instr) :
    Prop :=
  answer = .error (.illegalCode code) ∨ answer = decodeFields code jt jf k

variable {cls op : Code} {jt jf : Count} {k : Imm} {i onK onX : Instr}
  {answer rest : Except DecodeError Instr}

theorem RejectsOrMatches.reject : RejectsOrMatches code jt jf k (.error (.illegalCode code)) :=
  .inl rfl

theorem RejectsOrMatches.ite {c : Prop} [Decidable c]
    (hthen : c → RejectsOrMatches code jt jf k answer)
    (helse : ¬ c → RejectsOrMatches code jt jf k rest) :
    RejectsOrMatches code jt jf k (if c then answer else rest) := by
  split
  · exact hthen ‹_›
  · exact helse ‹_›

/-- One test of all five bits above the class. -/
theorem RejectsOrMatches.onOperation (hhigh : code &&& 0xFF00 = 0) (hcls : code &&& 0x07 = cls)
    (hrow : decodeFields (op ||| cls) jt jf k = .ok i)
    (hrest : RejectsOrMatches code jt jf k rest) :
    RejectsOrMatches code jt jf k (if code &&& 0xF8 = op then .ok i else rest) :=
  .ite (fun hop => .inr (by rw [code_eq_of_masks hhigh hcls hop, hrow])) fun _ => hrest

/-- One test of the operator, with an instruction for each source. -/
theorem RejectsOrMatches.onOperator (hhigh : code &&& 0xFF00 = 0) (hcls : code &&& 0x07 = cls)
    (hrowK : decodeFields (op ||| 0 ||| cls) jt jf k = .ok onK)
    (hrowX : decodeFields (op ||| 0x08 ||| cls) jt jf k = .ok onX)
    (hrest : RejectsOrMatches code jt jf k rest) :
    RejectsOrMatches code jt jf k
      (if code &&& 0xF0 = op then (if code &&& 0x08 = 0 then .ok onK else .ok onX) else rest) := by
  refine .ite (fun hop => .ite (fun hsrc => .inr ?_) fun hsrc => .inr ?_) fun _ => hrest
  · rw [code_eq_of_masks hhigh hcls (operation_eq_of_operator hop hsrc), hrowK]
  · rw [code_eq_of_masks hhigh hcls
      (operation_eq_of_operator hop (source_eq_of_ne_zero hsrc)), hrowX]

/-- One test of an operator that has no form with source `X`. -/
theorem RejectsOrMatches.onOperatorK (hhigh : code &&& 0xFF00 = 0) (hcls : code &&& 0x07 = cls)
    (hrowK : decodeFields (op ||| 0 ||| cls) jt jf k = .ok onK)
    (hrest : RejectsOrMatches code jt jf k rest) :
    RejectsOrMatches code jt jf k
      (if code &&& 0xF0 = op then
        (if code &&& 0x08 = 0 then .ok onK else .error (.illegalCode code)) else rest) := by
  refine .ite (fun hop => .ite (fun hsrc => .inr ?_) fun _ => .reject) fun _ => hrest
  rw [code_eq_of_masks hhigh hcls (operation_eq_of_operator hop hsrc), hrowK]

/-! ## The classes of R95 -/

theorem loadA_rejectsOrMatches (hhigh : code &&& 0xFF00 = 0) (hcls : code &&& 0x07 = 0x00) :
    RejectsOrMatches code jt jf k (decodeSubfields.loadA code k (.error (.illegalCode code))) :=
  .onOperation hhigh hcls rfl <| .onOperation hhigh hcls rfl <| .onOperation hhigh hcls rfl <|
  .onOperation hhigh hcls rfl <| .onOperation hhigh hcls rfl <| .onOperation hhigh hcls rfl <|
  .onOperation hhigh hcls rfl <| .onOperation hhigh hcls rfl <| .onOperation hhigh hcls rfl .reject

theorem loadX_rejectsOrMatches (hhigh : code &&& 0xFF00 = 0) (hcls : code &&& 0x07 = 0x01) :
    RejectsOrMatches code jt jf k (decodeSubfields.loadX code k (.error (.illegalCode code))) :=
  .onOperation hhigh hcls rfl <| .onOperation hhigh hcls rfl <| .onOperation hhigh hcls rfl <|
  .onOperation hhigh hcls rfl .reject

theorem alu_rejectsOrMatches (hhigh : code &&& 0xFF00 = 0) (hcls : code &&& 0x07 = 0x04) :
    RejectsOrMatches code jt jf k (decodeSubfields.alu code k (.error (.illegalCode code))) :=
  .onOperator hhigh hcls rfl rfl <| .onOperator hhigh hcls rfl rfl <|
  .onOperator hhigh hcls rfl rfl <| .onOperator hhigh hcls rfl rfl <|
  .onOperator hhigh hcls rfl rfl <| .onOperator hhigh hcls rfl rfl <|
  .onOperator hhigh hcls rfl rfl <| .onOperator hhigh hcls rfl rfl <|
  .onOperatorK hhigh hcls rfl .reject

theorem jump_rejectsOrMatches (hhigh : code &&& 0xFF00 = 0) (hcls : code &&& 0x07 = 0x05) :
    RejectsOrMatches code jt jf k
      (decodeSubfields.jump code jt jf k (.error (.illegalCode code))) :=
  .onOperatorK hhigh hcls rfl <| .onOperator hhigh hcls rfl rfl <|
  .onOperator hhigh hcls rfl rfl <| .onOperator hhigh hcls rfl rfl <|
  .onOperator hhigh hcls rfl rfl .reject

/-- No code gets a wrong instruction or a wrong rejection from the decoder by sub-fields. -/
theorem decodeSubfields_rejectsOrMatches (code : Code) (jt jf : Count) (k : Imm) :
    RejectsOrMatches code jt jf k (decodeSubfields code jt jf k) := by
  refine .ite (fun _ => .reject) fun hnot => ?_
  have hhigh : code &&& 0xFF00 = 0 := not_not.mp hnot
  refine .ite (fun hld => loadA_rejectsOrMatches hhigh hld) fun h0 => ?_
  refine .ite (fun hldx => loadX_rejectsOrMatches hhigh hldx) fun h1 => ?_
  refine .ite (fun hst => .onOperation hhigh hst rfl .reject) fun h2 => ?_
  refine .ite (fun hstx => .onOperation hhigh hstx rfl .reject) fun h3 => ?_
  refine .ite (fun halu => alu_rejectsOrMatches hhigh halu) fun h4 => ?_
  refine .ite (fun hjmp => jump_rejectsOrMatches hhigh hjmp) fun h5 => ?_
  refine .ite (fun hret => .onOperation hhigh hret rfl <| .onOperation hhigh hret rfl .reject)
    fun h6 => ?_
  have hmisc : code &&& 0x07 = 0x07 := class_eq_seven h0 h1 h2 h3 h4 h5 h6
  exact .onOperation hhigh hmisc rfl <| .onOperation hhigh hmisc rfl .reject

/-! ## The codes of the table -/

/-- The decoder by sub-fields accepts every code of the table, with that row's instruction. -/
theorem decodeSubfields_of_mem (jt jf : Count) (k : Imm) :
    ∀ row ∈ opcodeTable, decodeSubfields row.code jt jf k = .ok (row.build jt jf k) := by
  simp [opcodeTable, loadRows, storeRows, jumpRows, aluRows, miscRows, returnRows, decodeSubfields,
    decodeSubfields.loadA, decodeSubfields.loadX, decodeSubfields.alu, decodeSubfields.jump]

/-- Settles O4: a code of the table is accepted by both decoders with its row's instruction; for
every other code the exact match rejects, and so does the decoder by sub-fields. -/
theorem subfieldDecoderAgrees : Obligations.SubfieldDecoderAgrees := by
  intro code jt jf k
  cases hfound : opcodeRow code with
  | some row =>
    have hrow := opcodeRow_mem hfound
    rw [← opcodeRow_code hfound, decodeSubfields_of_mem jt jf k row hrow,
      decodeFields_of_mem hrow]
  | none =>
    have hillegal := decodeFields_of_opcodeRow_none hfound jt jf k
    rcases decodeSubfields_rejectsOrMatches code jt jf k with hreject | hmatch
    · rw [hreject, hillegal]
    · exact hmatch

end Sys2Proof.Encoding

/-!
What the instructions of more than one family share: the encoding of an instruction from its row of
the opcode table, and the frames of the named operations.
-/

namespace Sys2Proof.Machine

open Sys2Proof.Machine.Rules

variable {s : State}

/-- A row that its code selects encodes its instruction, whatever the ignored fields hold. -/
theorem encoded_of_opcodeRow {code : Code} {build : Count → Count → Imm → Instr}
    (hrow : opcodeRow code = some ⟨code, build⟩) : Encoded code build := by
  intro jt jf k
  rw [decode_makeWord]
  exact Encoding.decodeFields_of_mem (opcodeRow_mem hrow) jt jf k

/-- These three fields decide every packet byte, so the frame's last clause follows from the others. -/
theorem keepsWorld_of_fields {t : State} (hinputs : t.inputs = s.inputs)
    (hlaunches : t.launches = s.launches) (hseed : t.freeSeed = s.freeSeed) : KeepsWorld s t :=
  ⟨hinputs, hlaunches, hseed, State.packetByte_congr hinputs hseed⟩

theorem writesOnlyA_intoA (v : Word) : WritesOnlyA s (s.intoA v) :=
  ⟨rfl, State.slot_congr rfl, ⟨rfl, rfl⟩, keepsWorld_of_fields rfl rfl rfl⟩

theorem writesOnlyX_intoX (v : Word) : WritesOnlyX s (s.intoX v) :=
  ⟨rfl, State.slot_congr rfl, ⟨rfl, rfl⟩, keepsWorld_of_fields rfl rfl rfl⟩

theorem endsRun_endRun (status : Status) (outcome : RunOutcome) :
    EndsRun s (s.endRun status outcome) status outcome :=
  ⟨rfl, rfl, rfl, rfl, rfl, State.slot_congr rfl, keepsWorld_of_fields rfl rfl rfl⟩

/-- An instruction that puts a word into `A` and goes on. -/
theorem computesA_of_exec {i : Instr} {value : State → Nat} (word : State → Word)
    (hexec : ∀ s, exec i s = .next (s.intoA (word s))) (hvalue : ∀ s, (word s).toNat = value s) :
    ComputesA i value :=
  fun s => ⟨_, hexec s, hvalue s, rfl, writesOnlyA_intoA _⟩

/-- An instruction that puts a word into `X` and goes on. -/
theorem computesX_of_exec {i : Instr} {value : State → Nat} (word : State → Word)
    (hexec : ∀ s, exec i s = .next (s.intoX (word s))) (hvalue : ∀ s, (word s).toNat = value s) :
    ComputesX i value :=
  fun s => ⟨_, hexec s, hvalue s, rfl, writesOnlyX_intoX _⟩

end Sys2Proof.Machine

/-!
The packet loads (40_load.md R112 to R117, R124). The value that a packet read hands on is the sum
that 20_memory.md R54 and R55 write out; what the loads do with it, or with a failed bounds check, is
said once for all six loads into `A`.
-/

namespace Sys2Proof.Loads

open Sys2Proof.Machine Sys2Proof.Machine.Rules

variable {s : State}

/-! ## The value of a packet read -/

theorem packetBytes_one (off : Nat) : s.packetBytes off 1 = [s.packetByte off] := rfl

theorem packetBytes_two (off : Nat) :
    s.packetBytes off 2 = [s.packetByte off, s.packetByte (off + 1)] := rfl

theorem packetBytes_four (off : Nat) :
    s.packetBytes off 4 = [s.packetByte off, s.packetByte (off + 1), s.packetByte (off + 2),
      s.packetByte (off + 3)] := rfl

theorem memRead_of_big (h : s.inputs.byteOrder = .big) (off n : Nat) :
    s.memRead off n = bigEndian (s.packetBytes off n) := by
  simp [State.memRead, h]

theorem memRead_of_little (h : s.inputs.byteOrder = .little) (off n : Nat) :
    s.memRead off n = littleEndian (s.packetBytes off n) := by
  simp [State.memRead, h]

/-- The fold over the bytes read is the sum the rules write out, in either byte order. -/
theorem memRead_eq_writtenOutRead (s : State) (off : Nat) (size : Size) :
    s.memRead off size.bytes = writtenOutRead s off size := by
  cases horder : s.inputs.byteOrder with
  | big =>
    rw [memRead_of_big horder]
    cases size with
    | w =>
      simp only [Size.bytes, packetBytes_four, bigEndian, List.foldl_cons, List.foldl_nil,
        writtenOutRead, horder, Nat.add_zero]
      omega
    | h => simp [Size.bytes, packetBytes_two, bigEndian, writtenOutRead, horder]
    | b => simp [Size.bytes, packetBytes_one, bigEndian, writtenOutRead]
  | little =>
    rw [memRead_of_little horder]
    cases size with
    | w =>
      simp only [Size.bytes, packetBytes_four, littleEndian, List.foldr_cons, List.foldr_nil,
        writtenOutRead, horder, Nat.add_zero]
      omega
    | h => simp [Size.bytes, packetBytes_two, littleEndian, writtenOutRead, horder]
    | b => simp [Size.bytes, packetBytes_one, littleEndian, writtenOutRead]

/-- Widening to 64 bits loses nothing of a packet read. -/
theorem loadedWord_toNat (s : State) (off : Nat) (size : Size) :
    (BitVec.ofNat 64 (s.memRead off size.bytes)).toNat = writtenOutRead s off size := by
  rw [BitVec.toNat_ofNat, Nat.mod_eq_of_lt (s.memRead_lt_word off size),
    memRead_eq_writtenOutRead]

/-! ## The loads -/

/-- A packet read beyond `CAPLEN` ends the run with the bounds reject, whatever the value was for. -/
theorem packetLoad_rejects {size : Size} {off : Nat} (use : Word → State)
    (hout : s.inputs.capLen.toNat < off + size.bytes) :
    ∃ t, s.packetLoad size off use = .next t ∧ EndsRun s t .doneRejectBounds (.verdict 0) :=
  ⟨s.rejectBounds, State.packetLoad_outside use hout, endsRun_endRun _ _⟩

/-- An instruction that hands the value of a packet read to `A`. -/
theorem loadsPacketIntoA_of_exec {i : Instr} {size : Size} {off : State → Nat}
    (hexec : ∀ s : State, exec i s = s.packetLoad size (off s) fun v => s.intoA v) :
    LoadsPacketIntoA i size off := by
  intro s
  rw [hexec s]
  refine ⟨fun hin => ?_, packetLoad_rejects _⟩
  exact ⟨_, State.packetLoad_inside _ hin, loadedWord_toNat s (off s) size, rfl,
    writesOnlyA_intoA _⟩

/-- Settles O19: the six loads into `A` differ in size and offset alone, here the offset `k`. -/
theorem absoluteLoadsReadPacket : Obligations.AbsoluteLoadsReadPacket :=
  ⟨encoded_of_opcodeRow rfl, encoded_of_opcodeRow rfl, encoded_of_opcodeRow rfl, fun _ =>
    ⟨loadsPacketIntoA_of_exec fun _ => rfl, loadsPacketIntoA_of_exec fun _ => rfl,
      loadsPacketIntoA_of_exec fun _ => rfl⟩⟩

/-- Settles O20: the same with the offset `X + k`, a sum of natural numbers. -/
theorem indexedLoadsReadPacket : Obligations.IndexedLoadsReadPacket :=
  ⟨encoded_of_opcodeRow rfl, encoded_of_opcodeRow rfl, encoded_of_opcodeRow rfl, fun _ =>
    ⟨loadsPacketIntoA_of_exec fun _ => rfl, loadsPacketIntoA_of_exec fun _ => rfl,
      loadsPacketIntoA_of_exec fun _ => rfl⟩⟩

theorem exec_ldxBMsh (k : Imm) (s : State) :
    exec (.ldxBMsh k) s = s.packetLoad .b k.toNat fun v => s.intoX (mshValue v) := rfl

/-- Settles O21: the read is one byte, of which `mshValue` keeps four times the low nibble. -/
theorem headerLengthLoad : Obligations.HeaderLengthLoad := by
  refine ⟨encoded_of_opcodeRow rfl, fun k s => ?_⟩
  rw [exec_ldxBMsh]
  refine ⟨fun hin => ?_, fun hout => packetLoad_rejects _ hout⟩
  refine ⟨_, State.packetLoad_inside _ hin, ?_, rfl, writesOnlyX_intoX _⟩
  rw [State.intoX_x, mshValue_toNat, loadedWord_toNat]
  rfl

end Sys2Proof.Loads

/-!
The wire length (40_load.md R118, R123). A change of `WIRELEN` commutes with each named operation of
the instructions, so that it commutes with every instruction that is not one of the two length loads.
-/

namespace Sys2Proof.Machine

/-- `s` with another wire length. -/
def State.withWireLen (s : State) (len : BitVec 32) : State :=
  { s with inputs := { s.inputs with wireLen := len } }

/-- The two outcomes are the same but for the wire length, which is `len` in the second. -/
def SameUpToWireLen (len : BitVec 32) : Result → Result → Prop :=
  OutcomesRelated fun t t' => t' = t.withWireLen len

end Sys2Proof.Machine

namespace Sys2Proof.Loads

open Sys2Proof.Machine Sys2Proof.Machine.Rules

variable {s : State} {len : BitVec 32}

/-- The bounds, the byte order and the bytes of a packet read do not depend on the wire length. -/
theorem packetLoad_withWireLen {size : Size} {off : Nat} {use use' : Word → State}
    (huse : ∀ v, use' v = (use v).withWireLen len) :
    SameUpToWireLen len (s.packetLoad size off use)
      ((s.withWireLen len).packetLoad size off use') := by
  rcases Nat.lt_or_ge s.inputs.capLen.toNat (off + size.bytes) with hout | hin
  · rw [State.packetLoad_outside use hout,
      State.packetLoad_outside (s := s.withWireLen len) use' hout]
    rfl
  · rw [State.packetLoad_inside use hin,
      State.packetLoad_inside (s := s.withWireLen len) use' hin]
    exact huse _

theorem withSlot_withWireLen {code : Code} {k : Imm} {use use' : Fin Config.memWords → State}
    (huse : ∀ i, use' i = (use i).withWireLen len) :
    SameUpToWireLen len (s.withSlot code k use) ((s.withWireLen len).withSlot code k use') := by
  rcases Nat.lt_or_ge k.toNat Config.memWords with hin | hout
  · rw [State.withSlot_inside (i := ⟨k.toNat, hin⟩) use rfl,
      State.withSlot_inside (i := ⟨k.toNat, hin⟩) use' rfl]
    exact huse _
  · rw [State.withSlot_outside use hout, State.withSlot_outside use' hout]
    rfl

theorem divideA_withWireLen (d : Word) :
    SameUpToWireLen len (s.divideA d) ((s.withWireLen len).divideA d) := by
  by_cases hd : d = 0
  · simp only [State.divideA, hd, if_true]
    rfl
  · simp only [State.divideA, hd, if_false]
    rfl

/-- Three shared operations check something before they go on; an instruction that uses none of them
reads no inputs, so that its two next states are equal by definition. -/
theorem exec_withWireLen {i : Instr} (hld : i ≠ .ldWLen) (hldx : i ≠ .ldxWLen) :
    SameUpToWireLen len (exec i s) (exec i (s.withWireLen len)) := by
  cases i with
  | ldWAbs _ | ldHAbs _ | ldBAbs _ | ldWInd _ | ldHInd _ | ldBInd _ =>
    exact packetLoad_withWireLen fun _ => rfl
  | ldxBMsh _ =>
    rw [exec_ldxBMsh, exec_ldxBMsh]
    exact packetLoad_withWireLen fun _ => rfl
  | ldWMem _ | ldxWMem _ | st _ | stx _ => exact withSlot_withWireLen fun _ => rfl
  | aluDivK _ | aluDivX => exact divideA_withWireLen _
  | ldWLen => exact absurd rfl hld
  | ldxWLen => exact absurd rfl hldx
  | _ => rfl

/-- Settles O22: the length loads by their meaning, and every other instruction commutes with a
change of the wire length. -/
theorem lengthLoads : Obligations.LengthLoads :=
  ⟨encoded_of_opcodeRow rfl, encoded_of_opcodeRow rfl,
    computesA_of_exec _ (fun _ => rfl) (fun _ => lengthValue_toNat _),
    computesX_of_exec _ (fun _ => rfl) (fun _ => lengthValue_toNat _),
    fun _ _ _ hld hldx => exec_withWireLen hld hldx⟩

end Sys2Proof.Loads

/-!
The stores (41_store.md R140 to R142). The two differ only in the register they store, so that the
frame of a store and the fault of a scratch access are said once for both.
-/

namespace Sys2Proof.Stores

open Sys2Proof.Machine Sys2Proof.Machine.Rules

variable {s : State}

theorem writesOnlySlot_setSlot_advance (slot : Fin Config.memWords) (v : Word) :
    WritesOnlySlot slot s (s.setSlot slot v).advance :=
  ⟨rfl, rfl, fun _ hother => State.setSlot_slot_other s v hother, ⟨rfl, rfl⟩,
    keepsWorld_of_fields rfl rfl rfl⟩

/-- A scratch access beyond the slots ends the run with the fault, whatever the slot was for. -/
theorem withSlot_faults {code : Code} {k : Imm} (use : Fin Config.memWords → State)
    (hout : Config.memWords ≤ k.toNat) :
    ∃ t, s.withSlot code k use = .next t ∧
      EndsRun s t .faultIndexMem (.fault ⟨.scratchIndex, code, s.pc, k.setWidth 64⟩) :=
  ⟨s.raiseIndexMem code k, State.withSlot_outside use hout, endsRun_endRun _ _⟩

/-- An instruction that puts a word into the scratch slot `k` and goes on. -/
theorem storesSlot_of_exec {i : Instr} {code : Code} {k : Imm} {value : State → Word}
    (hexec : ∀ s : State,
      exec i s = s.withSlot code k fun slot => (s.setSlot slot (value s)).advance) :
    StoresSlot i code k value := by
  intro s
  rw [hexec s]
  refine ⟨fun slot hslot => ?_, withSlot_faults _⟩
  exact ⟨_, State.withSlot_inside _ hslot, State.setSlot_slot_same s slot (value s), rfl,
    writesOnlySlot_setSlot_advance slot (value s)⟩

/-- Settles O28: the two stores differ in their code and in the register alone. -/
theorem storesWriteOneSlot : Obligations.StoresWriteOneSlot :=
  ⟨encoded_of_opcodeRow rfl, encoded_of_opcodeRow rfl, fun _ =>
    ⟨storesSlot_of_exec fun _ => rfl, storesSlot_of_exec fun _ => rfl⟩⟩

end Sys2Proof.Stores

/-!
The conditional jumps (42_jump.md R152, R154 to R156, R158 to R160). They differ only in the condition
they test, so that the two targets and the frame of a branch are said once for all of them.
-/

namespace Sys2Proof.Jumps

open Sys2Proof.Machine Sys2Proof.Machine.Rules

variable {s : State}

theorem writesOnlyPc_setPc (target : Word) : WritesOnlyPc s (s.setPc target) :=
  ⟨rfl, rfl, State.slot_congr rfl, ⟨rfl, rfl⟩, keepsWorld_of_fields rfl rfl rfl⟩

/-- An instruction that branches on a Boolean test, which decides the condition of the rule. -/
theorem branchesOn_of_exec {i : Instr} {jt jf : Count} {cond : State → Prop} (test : State → Bool)
    (hexec : ∀ s, exec i s = s.branch (test s) jt jf) (htest : ∀ s, test s = true ↔ cond s) :
    BranchesOn i jt jf cond := by
  intro s
  refine ⟨_, (hexec s).trans (State.branch_eq _ _ _), writesOnlyPc_setPc _, fun htaken => ?_,
    fun hnot => ?_⟩
  · rw [State.setPc_pc, if_pos ((htest s).mpr htaken), branchTarget]
  · rw [State.setPc_pc, if_neg (mt (htest s).mp hnot), branchTarget]

/-- Settles O31: the tests compare the 64-bit words as natural numbers, and widening `k` to 64 bits
keeps its number. -/
theorem comparingJumpsImmediate : Obligations.ComparingJumpsImmediate := by
  refine ⟨encoded_of_opcodeRow rfl, encoded_of_opcodeRow rfl, encoded_of_opcodeRow rfl,
    fun jt jf k => ⟨?jeq, ?jgt, ?jge⟩⟩
  case jeq =>
    refine branchesOn_of_exec (fun s => condEq s.a (immediate k)) (fun _ => rfl) fun s => ?_
    rw [condEq_iff, immediate_toNat]
  case jgt =>
    refine branchesOn_of_exec (fun s => condGt s.a (immediate k)) (fun _ => rfl) fun s => ?_
    rw [condGt_iff, immediate_toNat]
  case jge =>
    refine branchesOn_of_exec (fun s => condGe s.a (immediate k)) (fun _ => rfl) fun s => ?_
    rw [condGe_iff, immediate_toNat]

/-- Settles O32: the same tests, with the operand `X`. -/
theorem comparingJumpsIndex : Obligations.ComparingJumpsIndex :=
  ⟨encoded_of_opcodeRow rfl, encoded_of_opcodeRow rfl, encoded_of_opcodeRow rfl, fun _ _ =>
    ⟨branchesOn_of_exec _ (fun _ => rfl) fun s => condEq_iff s.a s.x,
      branchesOn_of_exec _ (fun _ => rfl) fun s => condGt_iff s.a s.x,
      branchesOn_of_exec _ (fun _ => rfl) fun s => condGe_iff s.a s.x⟩⟩

end Sys2Proof.Jumps

/-!
The ALU instructions (43_alu.md R170 to R191). What an operation on words does to the
numbers of its two operands is said once; the instruction with `k` and the one with `X` both follow.
-/

namespace Sys2Proof.Alu

open Sys2Proof.Machine Sys2Proof.Machine.Rules

/-- The operation `op` on words is the operation `value` on their numbers. -/
def ActsAs (op : Word → Word → Word) (value : Nat → Nat → Nat) : Prop :=
  ∀ a d, (op a d).toNat = value a.toNat d.toNat

variable {s : State} {d : Word} {i : Instr} {op : Word → Word → Word} {value : Nat → Nat → Nat}

/-! ## The operations on natural numbers -/

theorem add_actsAs : ActsAs (· + ·) fun a d => (a + d) % 2 ^ 64 := BitVec.toNat_add

/-- Adding 2^64 before the subtraction keeps it from being cut off at 0. -/
theorem sub_actsAs : ActsAs (· - ·) fun a d => (a + 2 ^ 64 - d) % 2 ^ 64 := by
  intro a d
  rw [BitVec.toNat_sub', ← Nat.add_sub_assoc d.isLt.le a.toNat]

theorem mul_actsAs : ActsAs (· * ·) fun a d => a * d % 2 ^ 64 := BitVec.toNat_mul

theorem or_actsAs : ActsAs (· ||| ·) fun a d => a ||| d := BitVec.toNat_or

theorem and_actsAs : ActsAs (· &&& ·) fun a d => a &&& d := BitVec.toNat_and

theorem shiftLeft_actsAs :
    ActsAs (fun a d => a <<< shiftCount d) fun a d => a * 2 ^ (d % 64) % 2 ^ 64 := by
  intro a d
  rw [BitVec.toNat_shiftLeft, Nat.shiftLeft_eq, shiftCount]

theorem shiftRight_actsAs :
    ActsAs (fun a d => a >>> shiftCount d) fun a d => a / 2 ^ (d % 64) := by
  intro a d
  rw [BitVec.toNat_ushiftRight, Nat.shiftRight_eq_div_pow, shiftCount]

/-! ## From the operation to the instruction -/

/-- An instruction that operates on `A` and `k`: widening `k` to 64 bits keeps its number. -/
theorem computesA_immediate {k : Imm} (hop : ActsAs op value)
    (hexec : ∀ s, exec i s = .next (s.intoA (op s.a (immediate k)))) :
    ComputesA i fun s => value s.a.toNat k.toNat := by
  refine computesA_of_exec (fun s => op s.a (immediate k)) hexec fun s => ?_
  rw [hop, immediate_toNat]

/-- An instruction that operates on `A` and `X`. -/
theorem computesA_index (hop : ActsAs op value)
    (hexec : ∀ s, exec i s = .next (s.intoA (op s.a s.x))) :
    ComputesA i fun s => value s.a.toNat s.x.toNat :=
  computesA_of_exec (fun s => op s.a s.x) hexec fun s => hop s.a s.x

theorem divideA_of_ne_zero (hd : d ≠ 0) : s.divideA d = .next (s.intoA (s.a / d)) := if_neg hd

theorem divideA_of_eq_zero (hd : d = 0) : s.divideA d = .next s.rejectDivZero := if_pos hd

/-- An instruction that divides `A` by a word, whose number is the divisor of the rule. -/
theorem dividesA_of_exec {divisor : State → Nat} (word : State → Word)
    (hexec : ∀ s, exec i s = s.divideA (word s)) (hword : ∀ s, (word s).toNat = divisor s) :
    DividesA i divisor := by
  intro s
  have hzero : word s = 0 ↔ divisor s = 0 := by
    rw [← hword s]
    exact BitVec.toNat_inj.symm
  rw [hexec s]
  refine ⟨fun hne => ?quotient, fun heq => ?reject⟩
  case quotient =>
    refine ⟨_, divideA_of_ne_zero (mt hzero.mp hne), ?_, rfl, writesOnlyA_intoA _⟩
    rw [State.intoA_a, BitVec.toNat_udiv, hword]
  case reject => exact ⟨_, divideA_of_eq_zero (hzero.mpr heq), endsRun_endRun _ _⟩

/-! ## The instructions -/

/-- Settles O34: the three operations modulo 2^64, with the operand `k`. -/
theorem arithmeticImmediate : Obligations.ArithmeticImmediate :=
  ⟨encoded_of_opcodeRow rfl, encoded_of_opcodeRow rfl, encoded_of_opcodeRow rfl, fun _ =>
    ⟨computesA_immediate add_actsAs fun _ => rfl, computesA_immediate sub_actsAs fun _ => rfl,
      computesA_immediate mul_actsAs fun _ => rfl⟩⟩

/-- Settles O35: the same operations, with the operand `X`. -/
theorem arithmeticIndex : Obligations.ArithmeticIndex :=
  ⟨encoded_of_opcodeRow rfl, encoded_of_opcodeRow rfl, encoded_of_opcodeRow rfl,
    computesA_index add_actsAs fun _ => rfl, computesA_index sub_actsAs fun _ => rfl,
    computesA_index mul_actsAs fun _ => rfl⟩

/-- Settles O36: both divisions check their divisor in the same way. -/
theorem divisionOrReject : Obligations.DivisionOrReject :=
  ⟨encoded_of_opcodeRow rfl, encoded_of_opcodeRow rfl,
    fun k => dividesA_of_exec _ (fun _ => rfl) fun _ => immediate_toNat k,
    dividesA_of_exec _ (fun _ => rfl) fun _ => rfl⟩

/-- Settles O37: the bitwise operations on words are those on their numbers. -/
theorem bitwiseOperations : Obligations.BitwiseOperations :=
  ⟨encoded_of_opcodeRow rfl, encoded_of_opcodeRow rfl, encoded_of_opcodeRow rfl,
    encoded_of_opcodeRow rfl,
    fun _ => ⟨computesA_immediate or_actsAs fun _ => rfl,
      computesA_immediate and_actsAs fun _ => rfl⟩,
    computesA_index or_actsAs fun _ => rfl, computesA_index and_actsAs fun _ => rfl⟩

/-- Settles O38: a shift multiplies or divides by a power of 2, its exponent the operand modulo 64. -/
theorem shifts : Obligations.Shifts :=
  ⟨encoded_of_opcodeRow rfl, encoded_of_opcodeRow rfl, encoded_of_opcodeRow rfl,
    encoded_of_opcodeRow rfl,
    fun _ => ⟨computesA_immediate shiftLeft_actsAs fun _ => rfl,
      computesA_immediate shiftRight_actsAs fun _ => rfl⟩,
    computesA_index shiftLeft_actsAs fun _ => rfl, computesA_index shiftRight_actsAs fun _ => rfl⟩

/-- Settles O39: the negation of a word is its two's complement. -/
theorem negation : Obligations.Negation :=
  ⟨encoded_of_opcodeRow rfl, computesA_of_exec _ (fun _ => rfl) fun s => BitVec.toNat_neg s.a⟩

end Sys2Proof.Alu

/-!
The register transfers (44_misc.md R200 to R202): each is a write of the whole source register into
the destination, so that its frame is that of the write.
-/

namespace Sys2Proof.Misc

open Sys2Proof.Machine Sys2Proof.Machine.Rules

theorem exec_miscTax (s : State) : exec .miscTax s = .next (s.intoX s.a) := rfl

theorem exec_miscTxa (s : State) : exec .miscTxa s = .next (s.intoA s.x) := rfl

/-- Settles O40: the word that is written is the source register itself, so that nothing is cut off
from 2^32 on. -/
theorem registerTransfers : Obligations.RegisterTransfers :=
  ⟨encoded_of_opcodeRow rfl, encoded_of_opcodeRow rfl,
    computesX_of_exec State.a exec_miscTax fun _ => rfl,
    computesA_of_exec State.x exec_miscTxa fun _ => rfl⟩

end Sys2Proof.Misc

/-!
The returns (45_return.md R210 to R212). Both end the run with a verdict and differ only in the word
they deliver. What the caller sees of an ending with a verdict does not depend on which ending it is, so
that the verdict 0 of `RET K` reads like either reject.
-/

namespace Sys2Proof.Returns

open Sys2Proof.Machine Sys2Proof.Machine.Rules

variable {s : State} {i : Instr}

theorem exec_retK (k : Imm) (s : State) : exec (.retK k) s = .next (s.haltReturn (immediate k)) := rfl

theorem exec_retA (s : State) : exec .retA s = .next (s.haltReturn s.a) := rfl

theorem callerSees_endRun_verdict (status : Status) (v : Word) :
    (s.endRun status (.verdict v)).callerSees = some (.verdict v) := rfl

theorem immediate_eq_ofNat (k : Imm) : immediate k = BitVec.ofNat 64 k.toNat :=
  (BitVec.ofNat_toNat 64 k).symm

/-- An instruction that halts with a word delivers that word and keeps all but the outcome ports. -/
theorem deliversVerdict_of_exec {v : Word} (hexec : exec i s = .next (s.haltReturn v)) :
    ∃ t, exec i s = .next t ∧ EndsRun s t .doneReturn (.verdict v) ∧
      t.callerSees = some (.verdict v) :=
  ⟨_, hexec, endsRun_endRun _ _, callerSees_endRun_verdict _ _⟩

/-- `RET K` with `k = 0` is, to the caller, any ending with the verdict 0. -/
theorem retK_zero_callerSees (s : State) :
    ∃ t, exec (.retK 0) s = .next t ∧
      ∀ status, t.callerSees = (s.endRun status (.verdict 0)).callerSees := by
  have hzero : immediate 0 = 0 := (immediate_eq_zero_iff 0).mpr rfl
  refine ⟨_, exec_retK 0 s, fun status => ?_⟩
  rw [State.haltReturn_eq, hzero, callerSees_endRun_verdict, callerSees_endRun_verdict]

/-- Settles O41: both returns halt with a word, which is `k` zero-extended or `A` itself; both rejects
end with the verdict 0. -/
theorem returnsDeliverVerdict : Obligations.ReturnsDeliverVerdict := by
  refine ⟨encoded_of_opcodeRow rfl, encoded_of_opcodeRow rfl, fun s => ?zero, fun s =>
    ⟨fun k => ?retK, deliversVerdict_of_exec (exec_retA s)⟩⟩
  case zero =>
    obtain ⟨t, hexec, hsees⟩ := retK_zero_callerSees s
    exact ⟨t, hexec, hsees .doneRejectBounds, hsees .doneRejectDivzero⟩
  case retK =>
    rw [← immediate_eq_ofNat]
    exact deliversVerdict_of_exec (exec_retK k s)

end Sys2Proof.Returns

/-!
The encoder against the decoder (30_encoding.md R86, R102). Both go through the row of the opcode
map that the code of the word selects.
-/

namespace Sys2Proof.Encoding

open Sys2Proof.Machine.Rules Sys2Proof.Laws

/-- The per-instruction laws, collected. -/
theorem encodesItsRow : ∀ i : Instr, EncodesItsRow.Statement i
  | .ldWImm k => EncodesItsRow.ldWImm k
  | .ldWAbs k => EncodesItsRow.ldWAbs k
  | .ldHAbs k => EncodesItsRow.ldHAbs k
  | .ldBAbs k => EncodesItsRow.ldBAbs k
  | .ldWInd k => EncodesItsRow.ldWInd k
  | .ldHInd k => EncodesItsRow.ldHInd k
  | .ldBInd k => EncodesItsRow.ldBInd k
  | .ldWMem k => EncodesItsRow.ldWMem k
  | .ldWLen => EncodesItsRow.ldWLen
  | .ldxWImm k => EncodesItsRow.ldxWImm k
  | .ldxWMem k => EncodesItsRow.ldxWMem k
  | .ldxWLen => EncodesItsRow.ldxWLen
  | .ldxBMsh k => EncodesItsRow.ldxBMsh k
  | .st k => EncodesItsRow.st k
  | .stx k => EncodesItsRow.stx k
  | .jmpJa k => EncodesItsRow.jmpJa k
  | .jmpJeqK jt jf k => EncodesItsRow.jmpJeqK jt jf k
  | .jmpJgtK jt jf k => EncodesItsRow.jmpJgtK jt jf k
  | .jmpJgeK jt jf k => EncodesItsRow.jmpJgeK jt jf k
  | .jmpJsetK jt jf k => EncodesItsRow.jmpJsetK jt jf k
  | .jmpJeqX jt jf => EncodesItsRow.jmpJeqX jt jf
  | .jmpJgtX jt jf => EncodesItsRow.jmpJgtX jt jf
  | .jmpJgeX jt jf => EncodesItsRow.jmpJgeX jt jf
  | .jmpJsetX jt jf => EncodesItsRow.jmpJsetX jt jf
  | .aluAddK k => EncodesItsRow.aluAddK k
  | .aluSubK k => EncodesItsRow.aluSubK k
  | .aluMulK k => EncodesItsRow.aluMulK k
  | .aluDivK k => EncodesItsRow.aluDivK k
  | .aluOrK k => EncodesItsRow.aluOrK k
  | .aluAndK k => EncodesItsRow.aluAndK k
  | .aluLshK k => EncodesItsRow.aluLshK k
  | .aluRshK k => EncodesItsRow.aluRshK k
  | .aluAddX => EncodesItsRow.aluAddX
  | .aluSubX => EncodesItsRow.aluSubX
  | .aluMulX => EncodesItsRow.aluMulX
  | .aluDivX => EncodesItsRow.aluDivX
  | .aluOrX => EncodesItsRow.aluOrX
  | .aluAndX => EncodesItsRow.aluAndX
  | .aluLshX => EncodesItsRow.aluLshX
  | .aluRshX => EncodesItsRow.aluRshX
  | .aluNeg => EncodesItsRow.aluNeg
  | .miscTax => EncodesItsRow.miscTax
  | .miscTxa => EncodesItsRow.miscTxa
  | .retK k => EncodesItsRow.retK k
  | .retA => EncodesItsRow.retA

/-- Settles O1: the code of an instruction selects its row, and the row builds the instruction back
from the fields the encoder wrote. -/
theorem decodeOfEncodeIsIdentity : Obligations.DecodeOfEncodeIsIdentity := by
  intro i
  obtain ⟨row, hrow, hcode, hbuild⟩ := encodesItsRow i
  rw [encode, decode_makeWord, ← hcode, decodeFields_of_mem (opcodeRow_mem hrow), hbuild]

/-- The encoder undoes a row but for the fields that the column "uses" of the map leaves out. -/
theorem encode_build (jt jf : Count) (k : Imm) :
    ∀ row ∈ opcodeTable, encode (row.build jt jf k) = makeWord row.code
      (if readsJumpOffsets row.code then jt else 0) (if readsJumpOffsets row.code then jf else 0)
      (if readsImmediate row.code then k else 0) := by
  intro row hrow
  fin_cases hrow <;> rfl

/-- A decoded word carries the code of a row, and the instruction is that row's. -/
theorem decode_ok {w : Word} {i : Instr} (h : decode w = .ok i) :
    ∃ row ∈ opcodeTable, row.code = codeField w ∧
      i = row.build (jtField w) (jfField w) (kField w) := by
  obtain ⟨row, hrow, hbuild⟩ := decodeFields_ok h
  exact ⟨row, opcodeRow_mem hrow, opcodeRow_code hrow, hbuild⟩

/-- Settles O2, by the row the word selects. -/
theorem encodeOfDecodeZeroesUnusedFields : Obligations.EncodeOfDecodeZeroesUnusedFields := by
  intro w i hdecode
  obtain ⟨row, hrow, hcode, rfl⟩ := decode_ok hdecode
  rw [encode_build _ _ _ row hrow, hcode]

/-- A word whose code is not of the map is rejected with that code. -/
theorem decode_of_not_mem_opcodeMap {w : Word} (h : codeField w ∉ opcodeMap.map Prod.fst) :
    decode w = .error (.illegalCode (codeField w)) := by
  obtain ⟨-, -, hexact⟩ := decodingMatchesOpcodeMapExactly
  exact (hexact w).right h

/-- Settles O5: ten closed words. -/
theorem specExampleWordsDecode : Obligations.SpecExampleWordsDecode :=
  ⟨rfl, rfl, rfl, rfl, rfl, rfl, rfl, rfl, rfl, rfl⟩

end Sys2Proof.Encoding

/-!
What an instruction can do, said once for all 45: it goes on, keeping what the access table of
10_state.md R35 does not let it write and reaching one of its successors, or it ends the run in one
of the endings of 60_exceptions.md R220. The whole-machine statements are read off from this.
-/

namespace Sys2Proof.Machine

open Sys2Proof.Machine.Rules

/-- The six endings of 60_exceptions.md R220, with the outcome each one writes in the state `s`. -/
inductive Ending (s : State) : Status → RunOutcome → Prop
  | verdict (v : Word) : Ending s .doneReturn (.verdict v)
  | bounds : Ending s .doneRejectBounds (.verdict 0)
  | divZero : Ending s .doneRejectDivzero (.verdict 0)
  | illegal {code : Code} (hcode : opcodeRow code = none) :
      Ending s .faultIllegal (.fault ⟨.illegal, code, s.pc, 0⟩)
  | indexPc (hpc : s.inputs.progLen.toNat ≤ s.pc.toNat) :
      Ending s .faultIndexPc (.fault ⟨.fetchIndex, 0, s.pc, s.pc⟩)
  | indexMem {code : Code} {k : Imm} (hcode : code ∈ scratchCodes)
      (hk : Config.memWords ≤ k.toNat) :
      Ending s .faultIndexMem (.fault ⟨.scratchIndex, code, s.pc, immediate k⟩)

/-- The instruction leaves the ports and the world alone, writes what the access table says it
writes, and reaches a successor. A `pc` near 2^64, which no run reaches, could wrap. -/
structure GoesOn (i : Instr) (s t : State) : Prop where
  ports : KeepsPorts s t
  world : KeepsWorld s t
  a : .a ∉ writeColumns i → t.a = s.a
  x : .x ∉ writeColumns i → t.x = s.x
  slots : .slots ∉ writeColumns i → KeepsSlots s t
  successor : s.pc.toNat + 256 < 2 ^ 64 → t.pc.toNat ∈ i.successors s.pc.toNat

/-- The instruction ends the run, and not in a fault when it is well-formed. -/
def Ends (i : Instr) (s t : State) : Prop :=
  ∃ status outcome, Ending s status outcome ∧ t = s.endRun status outcome ∧
    (i.wellFormed = true → status.isFault = false)

/-- The answer is a next state at which the instruction went on or ended the run. -/
def Completes (i : Instr) (s : State) (answer : Result) : Prop :=
  ∃ t, answer = .next t ∧ (GoesOn i s t ∨ Ends i s t)

variable {i : Instr} {s t : State}

/-! ## The named operations -/

theorem advance_successor {idx : Word} (hnext : i.successors idx.toNat = [idx.toNat + 1])
    (hpc : idx.toNat + 256 < 2 ^ 64) : (idx + 1).toNat ∈ i.successors idx.toNat := by
  have hone : (1 : Word).toNat = 1 := rfl
  rw [hnext, List.mem_singleton, BitVec.toNat_add, hone]
  omega

theorem goesOn_intoA (v : Word) (hwrites : .a ∈ writeColumns i)
    (hnext : i.successors s.pc.toNat = [s.pc.toNat + 1]) : GoesOn i s (s.intoA v) where
  ports := ⟨rfl, rfl⟩
  world := keepsWorld_of_fields rfl rfl rfl
  a hkept := absurd hwrites hkept
  x _ := rfl
  slots _ := State.slot_congr rfl
  successor := advance_successor hnext

theorem goesOn_intoX (v : Word) (hwrites : .x ∈ writeColumns i)
    (hnext : i.successors s.pc.toNat = [s.pc.toNat + 1]) : GoesOn i s (s.intoX v) where
  ports := ⟨rfl, rfl⟩
  world := keepsWorld_of_fields rfl rfl rfl
  a _ := rfl
  x hkept := absurd hwrites hkept
  slots _ := State.slot_congr rfl
  successor := advance_successor hnext

theorem goesOn_store (slot : Fin Config.memWords) (v : Word) (hwrites : .slots ∈ writeColumns i)
    (hnext : i.successors s.pc.toNat = [s.pc.toNat + 1]) :
    GoesOn i s (s.setSlot slot v).advance where
  ports := ⟨rfl, rfl⟩
  world := keepsWorld_of_fields rfl rfl rfl
  a _ := rfl
  x _ := rfl
  slots hkept := absurd hwrites hkept
  successor := advance_successor hnext

theorem goesOn_setPc {target : Word}
    (htarget : s.pc.toNat + 256 < 2 ^ 64 → target.toNat ∈ i.successors s.pc.toNat) :
    GoesOn i s (s.setPc target) where
  ports := ⟨rfl, rfl⟩
  world := keepsWorld_of_fields rfl rfl rfl
  a _ := rfl
  x _ := rfl
  slots _ := State.slot_congr rfl
  successor := htarget

theorem completes_branch (cond : Bool) {jt jf : Count}
    (hnext : i.successors s.pc.toNat =
      [s.pc.toNat + 1 + jt.toNat, s.pc.toNat + 1 + jf.toNat]) :
    Completes i s (s.branch cond jt jf) := by
  refine ⟨_, State.branch_eq cond jt jf, .inl (goesOn_setPc fun hpc => ?_)⟩
  rw [branchTarget_toNat _ hpc, hnext]
  cases cond <;> simp

theorem ends_endRun {status : Status} {outcome : RunOutcome} (hending : Ending s status outcome)
    (hsound : i.wellFormed = true → status.isFault = false) :
    Ends i s (s.endRun status outcome) :=
  ⟨status, outcome, hending, rfl, hsound⟩

theorem completes_haltReturn (v : Word) : Completes i s (.next (s.haltReturn v)) :=
  ⟨_, rfl, .inr (ends_endRun (.verdict v) fun _ => rfl)⟩

theorem completes_packetLoad {size : Size} {off : Nat} {use : Word → State}
    (huse : ∀ v, GoesOn i s (use v)) : Completes i s (s.packetLoad size off use) := by
  rcases Nat.lt_or_ge s.inputs.capLen.toNat (off + size.bytes) with hout | hin
  · exact ⟨_, State.packetLoad_outside use hout, .inr (ends_endRun .bounds fun _ => rfl)⟩
  · exact ⟨_, State.packetLoad_inside use hin, .inl (huse _)⟩

theorem completes_withSlot {code : Code} {k : Imm} {use : Fin Config.memWords → State}
    (hcode : code ∈ scratchCodes) (hform : i.wellFormed = decide (k.toNat < Config.memWords))
    (huse : ∀ slot, GoesOn i s (use slot)) : Completes i s (s.withSlot code k use) := by
  rcases Nat.lt_or_ge k.toNat Config.memWords with hin | hout
  · exact ⟨_, State.withSlot_inside (i := ⟨k.toNat, hin⟩) use rfl, .inl (huse _)⟩
  · refine ⟨_, State.withSlot_outside use hout,
      .inr (ends_endRun (.indexMem hcode hout) fun hwf => ?_)⟩
    exact absurd (of_decide_eq_true (hform.symm.trans hwf)) (Nat.not_lt.mpr hout)

theorem completes_divideA (d : Word) (hwrites : .a ∈ writeColumns i)
    (hnext : i.successors s.pc.toNat = [s.pc.toNat + 1]) : Completes i s (s.divideA d) := by
  by_cases hd : d = 0
  · exact ⟨_, Alu.divideA_of_eq_zero hd, .inr (ends_endRun .divZero fun _ => rfl)⟩
  · exact ⟨_, Alu.divideA_of_ne_zero hd, .inl (goesOn_intoA _ hwrites hnext)⟩

/-! ## The instructions -/

/-- Every instruction completes in every state; those not named below put a word into `A`. -/
theorem exec_completes (i : Instr) (s : State) : Completes i s (exec i s) := by
  cases i with
  | ldWAbs _ | ldHAbs _ | ldBAbs _ | ldWInd _ | ldHInd _ | ldBInd _ =>
    exact completes_packetLoad fun _ => goesOn_intoA _ (.head _) rfl
  | ldxBMsh _ => exact completes_packetLoad fun _ => goesOn_intoX _ (.head _) rfl
  | ldWMem _ =>
    exact completes_withSlot (by simp [Instr.code, scratchCodes]) rfl fun _ =>
      goesOn_intoA _ (.head _) rfl
  | ldxWMem _ =>
    exact completes_withSlot (by simp [Instr.code, scratchCodes]) rfl fun _ =>
      goesOn_intoX _ (.head _) rfl
  | st _ | stx _ =>
    exact completes_withSlot (by simp [Instr.code, scratchCodes]) rfl fun _ =>
      goesOn_store _ _ (.head _) rfl
  | ldxWImm _ | ldxWLen | miscTax => exact ⟨_, rfl, .inl (goesOn_intoX _ (.head _) rfl)⟩
  | aluDivK _ | aluDivX => exact completes_divideA _ (.head _) rfl
  | jmpJa k =>
    refine ⟨_, rfl, .inl (goesOn_setPc fun _ => ?_)⟩
    rw [absoluteTarget, immediate_toNat]
    exact List.mem_singleton_self _
  | jmpJeqK _ _ _ | jmpJgtK _ _ _ | jmpJgeK _ _ _ | jmpJsetK _ _ _ | jmpJeqX _ _ | jmpJgtX _ _
  | jmpJgeX _ _ | jmpJsetX _ _ => exact completes_branch _ rfl
  | retK _ | retA => exact completes_haltReturn _
  | _ => exact ⟨_, rfl, .inl (goesOn_intoA _ (.head _) rfl)⟩

theorem exec_next (h : exec i s = .next t) : GoesOn i s t ∨ Ends i s t := by
  obtain ⟨u, hu, hcases⟩ := exec_completes i s
  rw [hu] at h
  cases h
  exact hcases

end Sys2Proof.Machine

/-!
What a step of a run in progress can do, and what follows for one step: which parts of the state an
ending and a step that goes on leave alone, where the run goes on, and the machine's invariant.
-/

namespace Sys2Proof.Machine

open Sys2Proof.Machine.Rules

variable {s t : State} {i : Instr} {status : Status} {outcome : RunOutcome}

/-! ## The endings -/

theorem Ending.isFault_or_isVerdict (h : Ending s status outcome) :
    status.isFault = true ∨ status.isVerdict = true := by
  cases h with
  | illegal _ | indexPc _ | indexMem _ _ => exact .inl rfl
  | verdict _ | bounds | divZero => exact .inr rfl

theorem Ending.status_ne_running (h : Ending s status outcome) : status ≠ .running := by
  cases h <;> decide

/-- Every ending writes the ports as 60_exceptions.md R227 says. -/
theorem Ending.portsAgree (h : Ending s status outcome) : PortsAgree (s.endRun status outcome) := by
  cases h with
  | verdict v => exact ⟨v, rfl⟩
  | bounds | divZero => exact rfl
  | @illegal code hcode => exact ⟨code, rfl, hcode⟩
  | indexPc hpc => exact ⟨rfl, hpc⟩
  | @indexMem code k hcode hk =>
    refine ⟨code, immediate k, rfl, hcode, ?_⟩
    rw [immediate_toNat]
    exact ⟨hk, k.isLt⟩

theorem Ending.callerSees_ne_none (h : Ending s status outcome) :
    (s.endRun status outcome).callerSees ≠ none := by
  cases h <;> simp [State.callerSees]

/-! ## One step of a run in progress -/

/-- The run is at an instruction: `pc` is inside the program and the word there decodes to `i`. -/
structure AtInstr (s : State) (i : Instr) : Prop where
  inside : s.pc.toNat < s.inputs.progLen.toNat
  word : ∃ w, Memory.read s.inputs.prog s.pc.toNat = some w ∧ decode w = .ok i

theorem GoesOn.running (hgo : GoesOn i s t) (hrun : s.status = .running) : t.status = .running := by
  obtain ⟨hstatus, -⟩ := hgo.ports
  rw [hstatus, hrun]

theorem step_eq_exec (hrun : s.status = .running) (hat : AtInstr s i) : step s = exec i s := by
  obtain ⟨hpc, w, hread, hdecode⟩ := hat
  rw [step_fetched hrun hpc hread, hdecode]

/-- A step of a run in progress ends the run or is an instruction that goes on. -/
theorem step_running_cases (hrun : s.status = .running) (h : step s = .next t) :
    (∃ status outcome, Ending s status outcome ∧ t = s.endRun status outcome) ∨
      ∃ i, AtInstr s i ∧ GoesOn i s t := by
  rcases step_running_next hrun h with
    ⟨hpc, rfl⟩ | ⟨w, hpc, hread, ⟨code, hdecode, rfl⟩ | ⟨i, hdecode, hexec⟩⟩
  · exact .inl ⟨_, _, .indexPc hpc, rfl⟩
  · obtain ⟨hnone, hcode⟩ := decodeFields_error hdecode
    cases hcode
    exact .inl ⟨_, _, .illegal hnone, rfl⟩
  · rcases exec_next hexec with hgo | ⟨status, outcome, hending, rfl, -⟩
    · exact .inr ⟨i, ⟨hpc, w, hread, hdecode⟩, hgo⟩
    · exact .inl ⟨status, outcome, hending, rfl⟩

/-- A step that leaves the run in progress is an instruction that goes on. -/
theorem step_goesOn (hrun : s.status = .running) (h : step s = .next t)
    (hrun' : t.status = .running) : ∃ i, AtInstr s i ∧ GoesOn i s t := by
  rcases step_running_cases hrun h with ⟨status, outcome, hending, rfl⟩ | hgo
  · exact absurd hrun' hending.status_ne_running
  · exact hgo

/-- A step that does not leave the run in progress is one of the endings. -/
theorem step_ends (hrun : s.status = .running) (h : step s = .next t)
    (hended : t.status ≠ .running) :
    ∃ status outcome, Ending s status outcome ∧ t = s.endRun status outcome := by
  rcases step_running_cases hrun h with hends | ⟨i, -, hgo⟩
  · exact hends
  · exact absurd (hgo.running hrun) hended

/-- `PROGLEN` has 33 bits, so that no `pc` inside a program is near 2^64. -/
theorem AtInstr.pc_lt (hat : AtInstr s i) : s.pc.toNat + 256 < 2 ^ 64 := by
  have hpc := hat.inside
  have hlen := s.inputs.progLen.isLt
  omega

theorem AtInstr.successor (hat : AtInstr s i) (hgo : GoesOn i s t) :
    t.pc.toNat ∈ i.successors s.pc.toNat :=
  hgo.successor hat.pc_lt

/-! ## Statements about one step -/

/-- Settles O6. -/
theorem stepRunsDecodedInstruction : Obligations.StepRunsDecodedInstruction :=
  fun _ w _ hrun hpc hread hdecode => step_eq_exec hrun ⟨hpc, w, hread, hdecode⟩

/-- Settles O9: the fetch check comes before the word. -/
theorem fetchOutsideProgramFaults : Obligations.FetchOutsideProgramFaults :=
  fun _ hrun hpc => ⟨_, step_outside hrun hpc, endsRun_endRun _ _, rfl⟩

/-- Settles O10: every instruction completes; a running engine is outside the program, or at a word
that is rejected, or at an instruction. -/
theorem runningEngineIsNeverStuck : Obligations.RunningEngineIsNeverStuck := by
  have hexec (i : Instr) (s : State) : ∃ t, exec i s = .next t := by
    obtain ⟨t, ht, -⟩ := exec_completes i s
    exact ⟨t, ht⟩
  refine ⟨hexec, fun s hrun hloaded => ?_⟩
  rcases Nat.lt_or_ge s.pc.toNat s.inputs.progLen.toNat with hpc | hpc
  · obtain ⟨w, hread⟩ := hloaded _ hpc
    rw [step_fetched hrun hpc hread]
    cases decode w with
    | error e => exact ⟨_, rfl⟩
    | ok i => exact hexec i s
  · exact ⟨_, step_outside hrun hpc⟩

/-- Settles O12. -/
theorem successorsAreKnownFromTheInstruction :
    Obligations.SuccessorsAreKnownFromTheInstruction := by
  intro s t w i hrun hpc hread hdecode hstep hrun'
  have hat : AtInstr s i := ⟨hpc, w, hread, hdecode⟩
  rw [step_eq_exec hrun hat] at hstep
  rcases exec_next hstep with hgo | ⟨status, outcome, hending, rfl, -⟩
  · exact ⟨hgo.ports, hat.successor hgo⟩
  · exact absurd hrun' hending.status_ne_running

/-- Settles O13: neither an ending nor an instruction that goes on touches the world. -/
theorem runInputsAreConstant : Obligations.RunInputsAreConstant := by
  intro s t hrun hstep
  rcases step_running_cases hrun hstep with ⟨status, outcome, -, rfl⟩ | ⟨i, -, hgo⟩
  · exact keepsWorld_of_fields rfl rfl rfl
  · exact hgo.world

/-- Settles O45: an instruction that goes on writes by the table, one that ends the run writes the
ports alone. -/
theorem accessTableWrites : Obligations.AccessTableWrites := by
  intro i s t hexec
  rcases exec_next hexec with hgo | ⟨status, outcome, -, rfl, -⟩
  · exact ⟨hgo.a, hgo.x, hgo.slots, hgo.world⟩
  · exact ⟨fun _ => rfl, fun _ => rfl, fun _ => State.slot_congr rfl,
      keepsWorld_of_fields rfl rfl rfl⟩

/-- Settles O49: every successor of a forward instruction lies above its index. -/
theorem forwardStepIncreasesPc : Obligations.ForwardStepIncreasesPc := by
  intro s t hrun hforward hstep hrun'
  obtain ⟨i, hat, hgo⟩ := step_goesOn hrun hstep hrun'
  have ⟨hpc, w, hread, hdecode⟩ := hat
  have habove := List.all_eq_true.mp (hforward _ w i hpc hread hdecode) _ (hat.successor hgo)
  exact of_decide_eq_true habove

/-! ## The invariant -/

/-- Before an ending the engine was running, so that its `pc` was bounded. -/
theorem inv_endRun (hinv : Inv s) (hrun : s.status = .running) (hending : Ending s status outcome) :
    Inv (s.endRun status outcome) where
  prog := hinv.prog
  storage := hinv.storage
  launches := hinv.launches
  progLen := hinv.progLen
  pc _ := hinv.pc (by rw [hrun]; decide)
  ports := hending.portsAgree

/-- The longest way a run can go: a branch from the last index, or a `JA`. -/
theorem successor_le {idx target : Nat} (h : target ∈ i.successors idx) :
    target ≤ idx + 256 ∨ target < 2 ^ 32 := by
  cases i with
  | jmpJa k =>
    rw [List.mem_singleton.mp h]
    exact .inr k.isLt
  | jmpJeqK jt jf _ | jmpJgtK jt jf _ | jmpJgeK jt jf _ | jmpJsetK jt jf _ | jmpJeqX jt jf
  | jmpJgtX jt jf | jmpJgeX jt jf | jmpJsetX jt jf =>
    have hjt := jt.isLt
    have hjf := jf.isLt
    simp only [Instr.successors, List.mem_cons, List.not_mem_nil, or_false] at h
    omega
  | retK _ | retA => exact absurd h List.not_mem_nil
  | _ =>
    rw [List.mem_singleton.mp h]
    omega

theorem inv_goesOn (hinv : Inv s) (hrun : s.status = .running) (hat : AtInstr s i)
    (hgo : GoesOn i s t) : Inv t := by
  obtain ⟨hinputs, hlaunches, -, -⟩ := hgo.world
  obtain ⟨hstatus, houtcome⟩ := hgo.ports
  constructor
  case prog => rw [hinputs]; exact hinv.prog
  case storage => rw [hinputs]; exact hinv.storage
  case launches => rw [hlaunches]; exact hinv.launches
  case progLen => rw [hinputs]; exact hinv.progLen
  case pc =>
    intro _
    have hpc := hat.inside
    have hlen := hinv.progLen
    have htarget := successor_le (hat.successor hgo)
    simp only [Config.progLenMax] at hlen ⊢
    omega
  case ports =>
    have hports := hinv.ports
    simp only [PortsAgree, hrun] at hports
    simp only [PortsAgree, hstatus, hrun, houtcome, hports]

theorem inv_start {r : RunInputs} {rest : List RunInputs} (hinv : Inv s)
    (hlaunches : s.launches = r :: rest) (hlen : r.progLen.toNat ≤ Config.progLenMax) :
    Inv (s.start r) := by
  have hwf : ∀ q ∈ r :: rest, Memory.wf q.prog ∧ Memory.wf q.storage := hlaunches ▸ hinv.launches
  obtain ⟨hprog, hstorage⟩ := hwf r List.mem_cons_self
  constructor
  case prog => exact hprog
  case storage => exact hstorage
  case launches =>
    rw [State.start_launches, hlaunches]
    exact fun q hq => hwf q (List.mem_cons_of_mem r hq)
  case progLen => exact hlen
  case pc => exact fun _ => Nat.zero_le _
  case ports => exact rfl

/-- Settles O42: a run in progress ends or goes on; an engine that is not running stands still or
takes its next launch. -/
theorem stepKeepsInvariant : Obligations.StepKeepsInvariant := by
  intro s t hinv hstep
  by_cases hrun : s.status = .running
  · rcases step_running_cases hrun hstep with ⟨status, outcome, hending, rfl⟩ | ⟨i, hat, hgo⟩
    · exact inv_endRun hinv hrun hending
    · exact inv_goesOn hinv hrun hat hgo
  · rw [step_idle hrun] at hstep
    rcases State.awaitStart_next hstep with ⟨-, rfl⟩ | ⟨r, rest, hlaunches, hlen, rfl⟩
    · exact hinv
    · exact inv_start hinv hlaunches hlen

/-- Settles O43: nothing is presented in either state, and the power-on engine is idle, so that its
`pc` is free. -/
theorem invariantHoldsAtReset : Obligations.InvariantHoldsAtReset := by
  obtain ⟨hprog, hstorage⟩ := RunInputs.empty_wf
  refine ⟨⟨hprog, hstorage, ?_, Nat.zero_le _, fun _ => Nat.zero_le _, rfl⟩, fun launches hwf =>
    ⟨hprog, hstorage, hwf, Nat.zero_le _, fun hidle => absurd rfl hidle, rfl⟩⟩
  exact fun r hr => absurd hr List.not_mem_nil

/-- Settles O44: in each of the eight states of `STATUS` the ports hold what the caller reads. -/
theorem faultIsNeverAVerdict : Obligations.FaultIsNeverAVerdict := by
  intro s hinv
  have hports := hinv.ports
  cases hstatus : s.status with
  | idle | running =>
    simp only [PortsAgree, hstatus] at hports
    simp [State.callerSees, hports, Status.isVerdict, Status.isFault]
  | doneReturn =>
    simp only [PortsAgree, hstatus] at hports
    obtain ⟨v, houtcome⟩ := hports
    simp [State.callerSees, houtcome, Status.isVerdict, Status.isFault]
  | doneRejectBounds | doneRejectDivzero =>
    simp only [PortsAgree, hstatus] at hports
    simp [State.callerSees, hports, Status.isVerdict, Status.isFault]
  | faultIllegal =>
    simp only [PortsAgree, hstatus] at hports
    obtain ⟨code, houtcome, -⟩ := hports
    simp [State.callerSees, houtcome, Status.isVerdict, Status.isFault]
  | faultIndexPc =>
    simp only [PortsAgree, hstatus] at hports
    obtain ⟨houtcome, -⟩ := hports
    simp [State.callerSees, houtcome, Status.isVerdict, Status.isFault]
  | faultIndexMem =>
    simp only [PortsAgree, hstatus] at hports
    obtain ⟨code, k, houtcome, -⟩ := hports
    simp [State.callerSees, houtcome, Status.isVerdict, Status.isFault]

end Sys2Proof.Machine

/-!
The engine that is not running (60_exceptions.md R238, 70_reset_and_hazards.md R260): without a
launch to come it stands still, however many steps it takes, and the next launch starts it anew. The
steps at the two ends of a run, and the instruction the host loads where the step fetches.
-/

namespace Sys2Proof.Machine

open Sys2Proof.Machine.Rules

variable {s t : State} {r : RunInputs} {rest : List RunInputs}

/-! ## Standing still and starting -/

theorem step_halted (hrun : s.status ≠ .running) (hlaunches : s.launches = []) :
    step s = .next s := by
  simp [step_idle hrun, State.awaitStart, hlaunches]

theorem step_start (hrun : s.status ≠ .running) (hlaunches : s.launches = r :: rest)
    (hlen : r.progLen.toNat ≤ Config.progLenMax) : step s = .next (s.start r) := by
  simp [step_idle hrun, State.awaitStart, hlaunches, Nat.not_lt.mpr hlen]

theorem step_refused (hrun : s.status ≠ .running) (hlaunches : s.launches = r :: rest)
    (hlen : Config.progLenMax < r.progLen.toNat) :
    step s = .refused (.launchTooLong r.progLen.toNat) := by
  simp [step_idle hrun, State.awaitStart, hlaunches, hlen]

/-- What every step keeps, a run keeps; and it is never stuck. -/
theorem run_keeps {P : State → Prop} (hstep : ∀ s, P s → ∃ t, step s = .next t ∧ P t) :
    ∀ (n : Nat) (s : State), P s → ∃ t, Sys2Proof.core.run n s = .next t ∧ P t
  | 0, s, hs => ⟨s, run_zero s, hs⟩
  | n + 1, s, hs => by
    obtain ⟨u, hu, hPu⟩ := hstep s hs
    rw [run_succ_next hu]
    exact run_keeps hstep n u hPu

theorem run_of_step_self (h : step s = .next s) (n : Nat) : Sys2Proof.core.run n s = .next s := by
  obtain ⟨t, ht, rfl⟩ := run_keeps (P := fun t => t = s) (fun t ht => ⟨t, ht ▸ h, ht⟩) n s rfl
  exact ht

/-- Settles O11: whatever ended the run was one of the endings. -/
theorem endingWritesOnlyOutcomePorts : Obligations.EndingWritesOnlyOutcomePorts := by
  intro s t hrun hstep hended
  obtain ⟨status, outcome, hending, rfl⟩ := step_ends hrun hstep hended
  exact ⟨endsRun_endRun status outcome, hending.isFault_or_isVerdict,
    fun hlaunches => run_of_step_self (step_halted hended hlaunches)⟩

/-- Settles O15: neither state has an outcome, and without a launch there is nothing to take. -/
theorem idleEngineDoesNothing : Obligations.IdleEngineDoesNothing :=
  ⟨fun _ => ⟨rfl, rfl⟩, fun _ => ⟨rfl, rfl⟩, fun _ => step_halted⟩

/-- Settles O16. -/
theorem startInitialisesEverything : Obligations.StartInitialisesEverything := by
  refine ⟨fun s r rest hrun hlaunches hlen => ?start, rfl, rfl, ?reset, rfl, rfl, rfl, rfl⟩
  case start =>
    exact ⟨s.start r, step_start hrun hlaunches hlen, rfl, rfl, s.start_slot r, rfl, rfl, rfl, rfl⟩
  case reset => exact (State.powerOn []).start_slot RunInputs.empty

theorem packetByte_of_presented {off : Nat} {v : Byte}
    (h : Memory.read s.inputs.storage (s.inputs.position off) = some v) : s.packetByte off = v := by
  simp [State.packetByte, h]

/-- Settles O17: the inputs become the launch itself. -/
theorem startTakesTheNextLaunch : Obligations.StartTakesTheNextLaunch := by
  intro s r rest hrun hlaunches hlen
  refine ⟨s.start r, step_start hrun hlaunches hlen, rfl, ?_,
    fun _ _ => packetByte_of_presented (s := s.start r)⟩
  rw [State.start_launches, hlaunches, List.tail_cons]

/-- Settles O18. -/
theorem overlongLaunchIsRefused : Obligations.OverlongLaunchIsRefused :=
  fun _ _ _ => step_refused

/-! ## Fetch -/

theorem pcOutside_reset : State.reset.inputs.progLen.toNat ≤ State.reset.pc.toNat := Nat.le_refl 0

/-- Settles O14: the empty program has no index 0. -/
theorem resetPresentsNothing : Obligations.ResetPresentsNothing :=
  ⟨rfl, rfl, rfl, rfl, rfl, _, step_outside rfl pcOutside_reset, rfl⟩

/-- Settles O8: the decoder rejects the word with its code, and the halted engine stands still. -/
theorem illegalCodeFaults : Obligations.IllegalCodeFaults := by
  intro s w hrun hpc hread hcode
  refine ⟨s.raiseIllegal (codeField w), ?_, endsRun_endRun _ _, rfl,
    step_halted (s := s.raiseIllegal _) nofun⟩
  rw [step_fetched hrun hpc hread, Encoding.decode_of_not_mem_opcodeMap hcode]

theorem fetchIndex_lt (s : State) : s.fetchIndex < Config.progLenMax := by
  rw [State.fetchIndex]
  split
  case isTrue h => exact h
  case isFalse => decide

theorem withFetchWord_pc (s : State) (nbits w : Nat) :
    (s.withFetchWord nbits w).pc.toNat = s.fetchIndex := by
  have hidx := fetchIndex_lt s
  have hpc : (s.withFetchWord nbits w).pc = BitVec.ofNat 64 s.fetchIndex := rfl
  rw [hpc, BitVec.toNat_ofNat, Nat.mod_eq_of_lt]
  simp only [Config.progLenMax] at hidx
  omega

theorem withFetchWord_progLen (s : State) (nbits w : Nat) :
    s.fetchIndex < (s.withFetchWord nbits w).inputs.progLen.toNat := by
  have hidx := fetchIndex_lt s
  simp only [State.withFetchWord]
  split
  case isTrue h => exact h
  case isFalse =>
    simp only [BitVec.toNat_ofNat, Config.progLenMax] at hidx ⊢
    omega

theorem decode_of_decodeTableWord {nbits w : Nat} {i : Instr}
    (h : decodeTableWord nbits w = some i) : decode (tableWord nbits w) = .ok i := by
  rw [decodeTableWord] at h
  split at h
  case h_1 j hj => rw [hj, Option.some.inj h]
  case h_2 => cases h

/-- Settles O7: the load puts the word where the step fetches, inside the program. -/
theorem loadedWordIsRunNext : Obligations.LoadedWordIsRunNext := by
  intro s w i hdecode
  refine step_eq_exec rfl ⟨?inside, tableWord 64 w, ?read, decode_of_decodeTableWord hdecode⟩
  case inside =>
    rw [withFetchWord_pc]
    exact withFetchWord_progLen s 64 w
  case read =>
    rw [withFetchWord_pc]
    exact Memory.read_write_same _ _ _

end Sys2Proof.Machine

/-!
Sound programs (70_reset_and_hazards.md R263) never fault, forward programs (60_exceptions.md R239)
end, and a `JA` to itself does not. The first is an invariant of the run, the second an induction
over the indices above `pc`, the third a step that changes nothing.
-/

namespace Sys2Proof.Machine

open Sys2Proof.Machine.Rules

variable {s t : State} {i : Instr}

/-! ## Sound programs -/

/-- What a run of a sound program keeps: inside the program, or ended without a fault. -/
def RunsSoundly (s : State) : Prop :=
  s.launches = [] ∧
    (s.status = .running ∧ s.pc.toNat < s.inputs.progLen.toNat ∧ ProgramSound s.inputs ∨
      s.status ≠ .running ∧ FaultFree s)

theorem RunsSoundly.faultFree (h : RunsSoundly s) : FaultFree s := by
  rcases h with ⟨-, ⟨hrun, -⟩ | ⟨-, hfree⟩⟩
  · rw [FaultFree, hrun]
    rfl
  · exact hfree

theorem goesOn_runsSoundly (hlaunches : s.launches = []) (hrun : s.status = .running)
    (hat : AtInstr s i) (hsound : ProgramSound s.inputs)
    (hinside : i.staysInside s.inputs.progLen.toNat s.pc.toNat = true) (hgo : GoesOn i s t) :
    RunsSoundly t := by
  obtain ⟨hinputs, hlaunches', -, -⟩ := hgo.world
  have hpc := of_decide_eq_true (List.all_eq_true.mp hinside _ (hat.successor hgo))
  refine ⟨hlaunches'.trans hlaunches, .inl ⟨hgo.running hrun, ?_, ?_⟩⟩
  · rwa [hinputs]
  · rwa [hinputs]

theorem step_runsSoundly (h : RunsSoundly s) : ∃ t, step s = .next t ∧ RunsSoundly t := by
  obtain ⟨hlaunches, ⟨hrun, hpc, hsound⟩ | ⟨hended, hfree⟩⟩ := h
  · have ⟨_, hwords⟩ := hsound
    obtain ⟨w, i, hread, hdecode, hform, hinside⟩ := hwords _ hpc
    have hat : AtInstr s i := ⟨hpc, w, hread, hdecode⟩
    obtain ⟨t, hexec, hgo | ⟨status, outcome, hending, rfl, hnofault⟩⟩ := exec_completes i s
    · exact ⟨t, (step_eq_exec hrun hat).trans hexec,
        goesOn_runsSoundly hlaunches hrun hat hsound hinside hgo⟩
    · exact ⟨_, (step_eq_exec hrun hat).trans hexec, hlaunches,
        .inr ⟨hending.status_ne_running, hnofault hform⟩⟩
  · exact ⟨s, step_halted hended hlaunches, hlaunches, .inr ⟨hended, hfree⟩⟩

/-- Settles O48. -/
theorem soundProgramNeverFaults : Obligations.SoundProgramNeverFaults := by
  intro s hrun hpc hsound hlaunches n
  obtain ⟨t, ht, hsoundly⟩ :=
    run_keeps (fun _ => step_runsSoundly) n s ⟨hlaunches, .inl ⟨hrun, hpc, hsound⟩⟩
  exact ⟨t, ht, hsoundly.faultFree⟩

theorem instrsWellFormed_getElem? {len : Nat} :
    ∀ {is : List Instr} {idx n : Nat}, instrsWellFormed len idx is = true → is[n]? = some i →
      i.wellFormed = true ∧ i.staysInside len (idx + n) = true
  | [], _, _, _, hget => by simp at hget
  | j :: rest, idx, n, hall, hget => by
    simp only [instrsWellFormed, Bool.and_eq_true] at hall
    obtain ⟨⟨hform, hinside⟩, hrest⟩ := hall
    cases n with
    | zero =>
      cases hget
      exact ⟨hform, hinside⟩
    | succ n =>
      rw [← Nat.succ_add_eq_add_succ]
      exact instrsWellFormed_getElem? hrest hget

theorem withInstrs_progLen {is : List Instr} (r : RunInputs) (hlen : is.length ≤ 2 ^ 32) :
    (r.withInstrs is).progLen.toNat = is.length := by
  simp only [RunInputs.withInstrs, BitVec.toNat_ofNat]
  omega

theorem withInstrs_read {is : List Instr} (r : RunInputs) (idx : Nat) :
    Memory.read (r.withInstrs is).prog idx = is[idx]?.map encode := by
  have h := Memory.read_ofList (is.map encode) 0 idx
  rwa [Nat.zero_add, List.getElem?_map] at h

/-- Settles O47: the word at an index is the encoding of the list's instruction there. -/
theorem wellFormedInstrsAreSoundProgram : Obligations.WellFormedInstrsAreSoundProgram := by
  intro is r hlen hform
  simp only [programWellFormed, Bool.and_eq_true] at hform
  obtain ⟨hnonempty, hall⟩ := hform
  rw [ProgramSound, withInstrs_progLen r hlen]
  refine ⟨List.length_pos_iff.mpr (by simpa using hnonempty), fun idx hidx => ?_⟩
  have hget : is[idx]? = some is[idx] := List.getElem?_eq_getElem hidx
  obtain ⟨hslot, hinside⟩ := instrsWellFormed_getElem? hall hget
  rw [Nat.zero_add] at hinside
  refine ⟨encode is[idx], is[idx], ?_, Encoding.decodeOfEncodeIsIdentity _, hslot, hinside⟩
  rw [withInstrs_read, hget, Option.map_some]

/-! ## Forward programs -/

/-- By induction on the number of indices from `pc` on: a step that goes on leaves fewer of them. -/
theorem forward_run_ends : ∀ (n : Nat) (s : State), s.status = .running → ProgramLoaded s.inputs →
    ProgramForward s.inputs → s.launches = [] → s.inputs.progLen.toNat ≤ s.pc.toNat + n →
    ∃ t, Sys2Proof.core.run (n + 1) s = .next t ∧ t.status ≠ .running ∧ t.callerSees ≠ none := by
  intro n
  induction n with
  | zero =>
    intro s hrun _ _ _ hpc
    have hending : Ending s _ _ := .indexPc hpc
    exact ⟨_, run_succ_next (step_outside hrun hpc), hending.status_ne_running,
      hending.callerSees_ne_none⟩
  | succ n ih =>
    intro s hrun hloaded hforward hlaunches hpc
    obtain ⟨-, hnext⟩ := runningEngineIsNeverStuck
    obtain ⟨t, hstep⟩ := hnext s hrun hloaded
    rw [run_succ_next hstep]
    rcases step_running_cases hrun hstep with ⟨status, outcome, hending, rfl⟩ | ⟨i, hat, hgo⟩
    · have hhalted : step (s.endRun status outcome) = .next (s.endRun status outcome) :=
        step_halted hending.status_ne_running hlaunches
      exact ⟨_, run_of_step_self hhalted _, hending.status_ne_running, hending.callerSees_ne_none⟩
    · have hrun' := hgo.running hrun
      obtain ⟨hinputs, hlaunches', -, -⟩ := hgo.world
      have hless := forwardStepIncreasesPc s t hrun hforward hstep hrun'
      refine ih t hrun' (hinputs ▸ hloaded) (hinputs ▸ hforward) (hlaunches'.trans hlaunches) ?_
      rw [hinputs]
      omega

/-- Settles O50: from index 0 there are `PROGLEN` indices to go. -/
theorem forwardProgramEnds : Obligations.ForwardProgramEnds := by
  intro s hrun _ hloaded hforward hlaunches
  exact forward_run_ends _ s hrun hloaded hforward hlaunches (Nat.le_add_left _ _)

/-! ## The jump to itself -/

theorem absoluteTarget_eq_of_toNat {pc : Word} {k : Imm} (h : pc.toNat = k.toNat) :
    absoluteTarget k = pc := by
  rw [← BitVec.toNat_inj, absoluteTarget, immediate_toNat, h]

/-- Settles O51: such a `JA` writes into `pc` what stands there. -/
theorem selfJumpNeverEnds : Obligations.SelfJumpNeverEnds := by
  intro s jt jf k hrun hpc hinside hread
  have hdecode : Encoded 0x0005 fun _ _ k => .jmpJa k := encoded_of_opcodeRow rfl
  have hat : AtInstr s (.jmpJa k) := ⟨hpc ▸ hinside, _, hpc ▸ hread, hdecode jt jf k⟩
  have hself : exec (.jmpJa k) s = .next (s.setPc (absoluteTarget k)) := rfl
  refine run_of_step_self ?_
  rw [step_eq_exec hrun hat, hself, absoluteTarget_eq_of_toNat hpc]
  rfl

end Sys2Proof.Machine

/-!
The loads, stores and jumps of the remaining statements: what is loaded from a slot, immediately or
from the packet, and how large it can be. What is said above for a family settles most of them.
-/

namespace Sys2Proof.Loads

open Sys2Proof.Machine Sys2Proof.Machine.Rules

variable {s t : State} {k : Imm} {size : Size} {off : Nat}

/-- Settles O23: `k` widened to 64 bits keeps its number. -/
theorem immediateLoads : Obligations.ImmediateLoads :=
  ⟨encoded_of_opcodeRow rfl, encoded_of_opcodeRow rfl, fun k =>
    ⟨computesA_of_exec _ (fun _ => rfl) fun _ => immediate_toNat k,
      computesX_of_exec _ (fun _ => rfl) fun _ => immediate_toNat k⟩⟩

theorem exec_ldWMem_inside {slot : Fin Config.memWords} (hslot : slot.val = k.toNat) (s : State) :
    exec (.ldWMem k) s = .next (s.intoA (s.slot slot)) :=
  State.withSlot_inside _ hslot

theorem exec_ldxWMem_inside {slot : Fin Config.memWords} (hslot : slot.val = k.toNat) (s : State) :
    exec (.ldxWMem k) s = .next (s.intoX (s.slot slot)) :=
  State.withSlot_inside _ hslot

/-- Settles O24: the index is compared as a whole, so that it names a slot or faults. -/
theorem scratchLoads : Obligations.ScratchLoads := by
  refine ⟨encoded_of_opcodeRow rfl, encoded_of_opcodeRow rfl, fun k s =>
    ⟨fun slot hslot => ⟨?a, ?x⟩, fun hout => ⟨Stores.withSlot_faults _ hout,
      Stores.withSlot_faults _ hout⟩⟩⟩
  case a => exact ⟨_, exec_ldWMem_inside hslot s, rfl, rfl, writesOnlyA_intoA _⟩
  case x => exact ⟨_, exec_ldxWMem_inside hslot s, rfl, rfl, writesOnlyX_intoX _⟩

/-- Settles O26: the exact sum lies beyond any `CAPLEN`, which has 32 bits. -/
theorem hugeIndexNeverWraps : Obligations.HugeIndexNeverWraps := by
  intro k s hx
  have hout (n : Nat) : s.inputs.capLen.toNat < indOffset s.x k + n := by
    have hcap := s.inputs.capLen.isLt
    rw [indOffset]
    omega
  exact ⟨packetLoad_rejects _ (hout _), packetLoad_rejects _ (hout _),
    packetLoad_rejects _ (hout _)⟩

/-- Settles O27. -/
theorem memReadCombinesBytes : Obligations.MemReadCombinesBytes := memRead_eq_writtenOutRead

/-- A packet read that leaves the run in progress was inside `CAPLEN`. -/
theorem packetLoad_running {use : Word → State} (h : s.packetLoad size off use = .next t)
    (hrun : t.status = .running) : t = use (BitVec.ofNat 64 (s.memRead off size.bytes)) := by
  rcases State.packetLoad_next h with ⟨-, hin⟩ | ⟨-, rfl⟩
  · exact hin
  · cases hrun

/-- Widening to 64 bits adds no upper bits to a packet read. -/
theorem loadedWord_lt (s : State) (off : Nat) (size : Size) :
    (BitVec.ofNat 64 (s.memRead off size.bytes)).toNat < 2 ^ (8 * size.bytes) := by
  rw [loadedWord_toNat, ← memRead_eq_writtenOutRead]
  exact s.memRead_lt off size.bytes

theorem loadedIntoA_lt (hrun : t.status = .running)
    (h : s.packetLoad size off (fun v => s.intoA v) = .next t) :
    t.a.toNat < 2 ^ (8 * size.bytes) := by
  rw [packetLoad_running h hrun]
  exact loadedWord_lt s off size

theorem loadedMsh_le (hrun : t.status = .running) (h : exec (.ldxBMsh k) s = .next t) :
    t.x.toNat ≤ 60 ∧ t.x.toNat % 4 = 0 := by
  rw [exec_ldxBMsh] at h
  rw [packetLoad_running h hrun, State.intoX_x, mshValue_toNat]
  omega

/-- Settles O25: the six loads into `A` by their size, `MSH` by its low nibble. -/
theorem packetLoadsZeroExtend : Obligations.PacketLoadsZeroExtend :=
  fun _ _ _ hrun _ =>
    ⟨fun h => h.elim (loadedIntoA_lt (size := .w) hrun) (loadedIntoA_lt (size := .w) hrun),
      fun h => h.elim (loadedIntoA_lt (size := .h) hrun) (loadedIntoA_lt (size := .h) hrun),
      fun h => h.elim (loadedIntoA_lt (size := .b) hrun) (loadedIntoA_lt (size := .b) hrun),
      loadedMsh_le hrun⟩

end Sys2Proof.Loads

namespace Sys2Proof.Stores

open Sys2Proof.Machine Sys2Proof.Machine.Rules

variable {s : State} {k : Imm}

/-- After a store into a slot both loads of it give the stored word. -/
theorem load_after_store {store : Instr} {v : Word} (slot : Fin Config.memWords)
    (hslot : slot.val = k.toNat) (hstore : exec store s = .next (s.setSlot slot v).advance) :
    (∃ t u, exec store s = .next t ∧ exec (.ldWMem k) t = .next u ∧ u.a = v) ∧
      ∃ t u, exec store s = .next t ∧ exec (.ldxWMem k) t = .next u ∧ u.x = v := by
  have hread : (s.setSlot slot v).advance.slot slot = v := State.setSlot_slot_same s slot v
  exact ⟨⟨_, _, hstore, Loads.exec_ldWMem_inside hslot _, hread⟩,
    ⟨_, _, hstore, Loads.exec_ldxWMem_inside hslot _, hread⟩⟩

/-- Settles O29: the two stores differ in the stored register alone. -/
theorem storeThenLoadReturnsValue : Obligations.StoreThenLoadReturnsValue := by
  intro k s hk
  have hst : exec (.st k) s = .next (s.setSlot ⟨k.toNat, hk⟩ s.a).advance :=
    State.withSlot_inside _ rfl
  have hstx : exec (.stx k) s = .next (s.setSlot ⟨k.toNat, hk⟩ s.x).advance :=
    State.withSlot_inside _ rfl
  obtain ⟨hintoA, hintoX⟩ := load_after_store ⟨k.toNat, hk⟩ rfl hst
  obtain ⟨hxIntoA, hxIntoX⟩ := load_after_store ⟨k.toNat, hk⟩ rfl hstx
  exact ⟨hintoA, hintoX, hxIntoA, hxIntoX⟩

end Sys2Proof.Stores

namespace Sys2Proof.Jumps

open Sys2Proof.Machine Sys2Proof.Machine.Rules

/-- Settles O30. -/
theorem jumpAlwaysIsAbsolute : Obligations.JumpAlwaysIsAbsolute :=
  ⟨encoded_of_opcodeRow rfl, fun k _ => ⟨_, rfl, immediate_toNat k, writesOnlyPc_setPc _⟩⟩

/-- Settles O33: the bits common to two words are those common to their numbers. -/
theorem bitTestJumps : Obligations.BitTestJumps := by
  refine ⟨encoded_of_opcodeRow rfl, encoded_of_opcodeRow rfl, fun jt jf k => ⟨?jsetK, ?jsetX⟩⟩
  case jsetK =>
    refine branchesOn_of_exec (fun s => condSet s.a (immediate k)) (fun _ => rfl) fun s => ?_
    rw [condSet_iff, immediate_toNat]
  case jsetX => exact branchesOn_of_exec _ (fun _ => rfl) fun s => condSet_iff s.a s.x

end Sys2Proof.Jumps

/-!
The packet presented otherwise (20_memory.md R58, 95_test_vectors.md S1, S2): in another storage, at
another place in it, with other bytes where none was presented. As long as the captured bytes are
the same, every instruction commutes with such a change, since a read that is let through sees
captured bytes alone. Two runs that differ only so go on alike; this settles both statements about
what a run does not depend on.
-/

namespace Sys2Proof.Machine

open Sys2Proof.Machine.Rules

/-- `s` with the packet in another storage and place, and other free bytes. -/
def State.withPacket (s : State) (storage : List Host.Cell) (base : BitVec 64) (seed : Nat) :
    State :=
  { s with inputs := { s.inputs with storage := storage, bufBase := base }, freeSeed := seed }

/-- Every captured byte reads the same in both. -/
def SameBytes (s s' : State) : Prop :=
  ∀ off, off < s.inputs.capLen.toNat → s'.packetByte off = s.packetByte off

/-- The two states differ at most in how the packet is presented, with the same captured bytes. -/
def SamePacket (s s' : State) : Prop :=
  s' = s.withPacket s'.inputs.storage s'.inputs.bufBase s'.freeSeed ∧ SameBytes s s'

variable {s s' : State} {storage : List Host.Cell} {base : BitVec 64} {seed : Nat}

/-! ## One instruction -/

/-- The two answers differ in the presentation of the packet alone. -/
def CommutesWithPacket (storage : List Host.Cell) (base : BitVec 64) (seed : Nat) :
    Result → Result → Prop :=
  OutcomesRelated fun t t' => t' = t.withPacket storage base seed

theorem memRead_withPacket {off n : Nat} (hsame : SameBytes s (s.withPacket storage base seed))
    (hin : off + n ≤ s.inputs.capLen.toNat) :
    (s.withPacket storage base seed).memRead off n = s.memRead off n := by
  have hbytes : (s.withPacket storage base seed).packetBytes off n = s.packetBytes off n := by
    refine List.map_congr_left fun i hi => hsame _ ?_
    have := List.mem_range.mp hi
    omega
  have horder : (s.withPacket storage base seed).inputs.byteOrder = s.inputs.byteOrder := rfl
  simp only [State.memRead, hbytes, horder]

theorem packetLoad_withPacket {size : Size} {off : Nat} {use use' : Word → State}
    (hsame : SameBytes s (s.withPacket storage base seed))
    (huse : ∀ v, use' v = (use v).withPacket storage base seed) :
    CommutesWithPacket storage base seed (s.packetLoad size off use)
      ((s.withPacket storage base seed).packetLoad size off use') := by
  rcases Nat.lt_or_ge s.inputs.capLen.toNat (off + size.bytes) with hout | hin
  · rw [State.packetLoad_outside use hout,
      State.packetLoad_outside (s := s.withPacket storage base seed) use' hout]
    rfl
  · rw [State.packetLoad_inside use hin,
      State.packetLoad_inside (s := s.withPacket storage base seed) use' hin,
      memRead_withPacket hsame hin]
    exact huse _

theorem withSlot_withPacket {code : Code} {k : Imm} {use use' : Fin Config.memWords → State}
    (huse : ∀ i, use' i = (use i).withPacket storage base seed) :
    CommutesWithPacket storage base seed (s.withSlot code k use)
      ((s.withPacket storage base seed).withSlot code k use') := by
  rcases Nat.lt_or_ge k.toNat Config.memWords with hin | hout
  · rw [State.withSlot_inside (i := ⟨k.toNat, hin⟩) use rfl,
      State.withSlot_inside (i := ⟨k.toNat, hin⟩) use' rfl]
    exact huse _
  · rw [State.withSlot_outside use hout, State.withSlot_outside use' hout]
    rfl

theorem divideA_withPacket (d : Word) :
    CommutesWithPacket storage base seed (s.divideA d)
      ((s.withPacket storage base seed).divideA d) := by
  by_cases hd : d = 0
  · rw [Alu.divideA_of_eq_zero hd, Alu.divideA_of_eq_zero hd]
    rfl
  · rw [Alu.divideA_of_ne_zero hd, Alu.divideA_of_ne_zero hd]
    rfl

/-- Only the packet loads read the packet; what checks nothing answers by definition. -/
theorem exec_withPacket (i : Instr) (hsame : SameBytes s (s.withPacket storage base seed)) :
    CommutesWithPacket storage base seed (exec i s) (exec i (s.withPacket storage base seed)) := by
  cases i with
  | ldWAbs _ | ldHAbs _ | ldBAbs _ | ldWInd _ | ldHInd _ | ldBInd _ =>
    exact packetLoad_withPacket hsame fun _ => rfl
  | ldxBMsh _ =>
    rw [Loads.exec_ldxBMsh, Loads.exec_ldxBMsh]
    exact packetLoad_withPacket hsame fun _ => rfl
  | ldWMem _ | ldxWMem _ | st _ | stx _ => exact withSlot_withPacket fun _ => rfl
  | aluDivK _ | aluDivX => exact divideA_withPacket _
  | _ => rfl

/-! ## One step and several -/

theorem OutcomesRelated.cases {rel : State → State → Prop} {o o' : Result}
    (h : OutcomesRelated rel o o') :
    (∃ t t', o = .next t ∧ o' = .next t' ∧ rel t t') ∨
      (∃ f, o = .fault f ∧ o' = .fault f) ∨ ∃ r, o = .refused r ∧ o' = .refused r := by
  cases o <;> cases o'
  case next.next t t' => exact .inl ⟨t, t', rfl, rfl, h⟩
  case fault.fault f f' => exact .inr (.inl ⟨f, rfl, congrArg _ h.symm⟩)
  case refused.refused r r' => exact .inr (.inr ⟨r, rfl, congrArg _ h.symm⟩)
  all_goals exact h.elim

/-- A relation of outcomes strengthened by what is known of the next states. -/
theorem OutcomesRelated.strengthen {rel rel' : State → State → Prop} {o o' : Result}
    (h : OutcomesRelated rel o o')
    (himp : ∀ t t', o = .next t → o' = .next t' → rel t t' → rel' t t') :
    OutcomesRelated rel' o o' := by
  rcases h.cases with ⟨t, t', rfl, rfl, hrel⟩ | ⟨f, rfl, rfl⟩ | ⟨r, rfl, rfl⟩
  · exact himp t t' rfl rfl hrel
  · rfl
  · rfl

/-- What two steps keep related, two runs keep related. -/
theorem run_related {rel : State → State → Prop}
    (hstep : ∀ s s', rel s s' → OutcomesRelated rel (step s) (step s')) :
    ∀ (n : Nat) (s s' : State), rel s s' →
      OutcomesRelated rel (Sys2Proof.core.run n s) (Sys2Proof.core.run n s')
  | 0, _, _, h => h
  | n + 1, s, s', h => by
    rw [run_succ, run_succ]
    rcases (hstep s s' h).cases with ⟨t, t', hs, hs', hrel⟩ | ⟨f, hs, hs'⟩ | ⟨r, hs, hs'⟩
    · rw [hs, hs']
      exact run_related hstep n t t' hrel
    · rw [hs, hs']
      rfl
    · rw [hs, hs']
      rfl

/-- Where the host loaded no word, the step stops (log entry 7). -/
theorem step_absent (hrun : s.status = .running) (hpc : s.pc.toNat < s.inputs.progLen.toNat)
    (hread : Memory.read s.inputs.prog s.pc.toNat = none) :
    step s = .fault (.programWordAbsent s.pc.toNat) := by
  simp [step, hrun, stepRunning, State.pcOutside, Nat.not_le.mpr hpc, State.fetchWord, hread]

theorem step_withPacket (hrun : s.status = .running)
    (hsame : SameBytes s (s.withPacket storage base seed)) :
    CommutesWithPacket storage base seed (step s) (step (s.withPacket storage base seed)) := by
  have hrun' : (s.withPacket storage base seed).status = .running := hrun
  rcases Nat.lt_or_ge s.pc.toNat s.inputs.progLen.toNat with hpc | hpc
  · cases hread : Memory.read s.inputs.prog s.pc.toNat with
    | none =>
      rw [step_absent hrun hpc hread,
        step_absent (s := s.withPacket storage base seed) hrun' hpc hread]
      rfl
    | some w =>
      rw [step_fetched hrun hpc hread,
        step_fetched (s := s.withPacket storage base seed) hrun' hpc hread]
      cases decode w with
      | error e => rfl
      | ok i => exact exec_withPacket i hsame
  · rw [step_outside hrun hpc, step_outside (s := s.withPacket storage base seed) hrun' hpc]
    rfl

/-- The world is kept by both steps, so that the captured bytes are still the same. -/
theorem step_samePacket (h : SamePacket s s') (hrun : s.status = .running) :
    OutcomesRelated
      (fun t t' => SamePacket t t' ∧ t'.freeSeed = s'.freeSeed ∧ KeepsWorld s t)
      (step s) (step s') := by
  obtain ⟨heq, hbytes⟩ := h
  have hrun' : s'.status = .running := by rw [heq]; exact hrun
  have hcommutes := step_withPacket hrun (heq ▸ hbytes)
  rw [← heq] at hcommutes
  refine hcommutes.strengthen fun t t' hstep hstep' heq' => ?_
  have hworld := runInputsAreConstant s t hrun hstep
  have ⟨hinputs, _, _, hbyte⟩ := hworld
  obtain ⟨hinputs', -, hseed', hbyte'⟩ := runInputsAreConstant s' t' hrun' hstep'
  refine ⟨⟨?_, fun off hoff => ?_⟩, hseed', hworld⟩
  · rw [hinputs', hseed']
    exact heq'
  · rw [hbyte, hbyte']
    exact hbytes off (hinputs ▸ hoff)

/-! ## What a run does not depend on -/

theorem sameCapture_iff : SameCapture s s' ↔ SamePacket s s' ∧ s'.freeSeed = s.freeSeed := by
  constructor
  · rintro ⟨heq, hbytes⟩
    have hseed : s'.freeSeed = s.freeSeed := by rw [heq]
    refine ⟨⟨?_, hbytes⟩, hseed⟩
    rw [hseed]
    exact heq
  · rintro ⟨⟨heq, hbytes⟩, hseed⟩
    rw [hseed] at heq
    exact ⟨heq, hbytes⟩

theorem SameCapture.refl (s : State) : SameCapture s s := ⟨rfl, fun _ _ => rfl⟩

/-- What a `START` makes of the engine, apart from the launch itself. -/
theorem start_congr (r : RunInputs) (hlaunches : s'.launches = s.launches)
    (hseed : s'.freeSeed = s.freeSeed) : s'.start r = s.start r := by
  simp only [State.start, hlaunches, hseed]

theorem step_halted_sameCapture (h : SameCapture s s') (hrun : s.status ≠ .running) :
    OutcomesRelated SameCapture (step s) (step s') := by
  have ⟨heq, _⟩ := h
  have hrun' : s'.status ≠ .running := by rw [heq]; exact hrun
  have hsame : s'.launches = s.launches := by rw [heq]
  have hseed : s'.freeSeed = s.freeSeed := by rw [heq]
  cases hlaunches : s.launches with
  | nil =>
    rw [step_halted hrun hlaunches, step_halted hrun' (hsame.trans hlaunches)]
    exact h
  | cons r rest =>
    rcases Nat.lt_or_ge Config.progLenMax r.progLen.toNat with hlen | hlen
    · rw [step_refused hrun hlaunches hlen, step_refused hrun' (hsame.trans hlaunches) hlen]
      rfl
    · rw [step_start hrun hlaunches hlen, step_start hrun' (hsame.trans hlaunches) hlen,
        start_congr r hsame hseed]
      exact SameCapture.refl _

theorem step_sameCapture (s s' : State) (h : SameCapture s s') :
    OutcomesRelated SameCapture (step s) (step s') := by
  by_cases hrun : s.status = .running
  · obtain ⟨hpacket, hseed⟩ := sameCapture_iff.mp h
    refine (step_samePacket hpacket hrun).strengthen fun t t' _ _ hrel => ?_
    obtain ⟨hpacket', hseed', -, -, hkept, -⟩ := hrel
    exact sameCapture_iff.mpr ⟨hpacket', by rw [hseed', hseed, hkept]⟩
  · exact step_halted_sameCapture h hrun

/-- Settles O52. -/
theorem onlyCapturedBytesMatter : Obligations.OnlyCapturedBytesMatter :=
  fun s s' n h => run_related step_sameCapture n s s' h

/-- Two runs of one launch, neither of which will be followed by another. -/
def SameLastRun (s s' : State) : Prop := SamePacket s s' ∧ s.launches = []

theorem SamePacket.launches (h : SamePacket s s') : s'.launches = s.launches := by
  obtain ⟨heq, -⟩ := h
  rw [heq]
  rfl

theorem SamePacket.status (h : SamePacket s s') : s'.status = s.status := by
  obtain ⟨heq, -⟩ := h
  rw [heq]
  rfl

theorem SamePacket.callerSees (h : SamePacket s s') : s'.callerSees = s.callerSees := by
  obtain ⟨heq, -⟩ := h
  rw [heq]
  rfl

theorem step_sameLastRun (s s' : State) (h : SameLastRun s s') :
    OutcomesRelated SameLastRun (step s) (step s') := by
  have ⟨hpacket, hlaunches⟩ := h
  by_cases hrun : s.status = .running
  · refine (step_samePacket hpacket hrun).strengthen fun t t' _ _ hrel => ?_
    obtain ⟨hpacket', -, -, hkept, -⟩ := hrel
    exact ⟨hpacket', hkept.trans hlaunches⟩
  · rw [step_halted hrun hlaunches,
      step_halted (hpacket.status ▸ hrun) (hpacket.launches.trans hlaunches)]
    exact h

/-- What is presented reads the same in every engine, whatever its free bytes. -/
theorem start_sameLastRun {r : RunInputs} (hpresented : PacketPresented r)
    (hlast : s.launches.tail = []) (hlast' : s'.launches.tail = []) :
    SameLastRun (s.start r) (s'.start r) := by
  refine ⟨⟨?_, fun off hoff => ?_⟩, hlast⟩
  · simp only [State.start, State.withPacket, hlast, hlast']
  · obtain ⟨v, hread⟩ := hpresented off hoff
    rw [packetByte_of_presented (s := s.start r) hread,
      packetByte_of_presented (s := s'.start r) hread]

theorem run_last_launch {r : RunInputs} (fuel : Nat) (hpresented : PacketPresented r)
    (hrun : s.status ≠ .running) (hrun' : s'.status ≠ .running)
    (hlaunches : s.launches = [r]) (hlaunches' : s'.launches = [r]) :
    OutcomesRelated SameLastRun (Sys2Proof.core.run (fuel + 1) s)
      (Sys2Proof.core.run (fuel + 1) s') := by
  rcases Nat.lt_or_ge Config.progLenMax r.progLen.toNat with hlen | hlen
  · rw [run_succ, run_succ, step_refused hrun hlaunches hlen, step_refused hrun' hlaunches' hlen]
    rfl
  · rw [run_succ_next (step_start hrun hlaunches hlen),
      run_succ_next (step_start hrun' hlaunches' hlen)]
    refine run_related step_sameLastRun fuel _ _ (start_sameLastRun hpresented ?_ ?_)
    · rw [hlaunches, List.tail_cons]
    · rw [hlaunches', List.tail_cons]

theorem execute_eq_of_related {fuel : Nat} {r : RunInputs}
    (h : OutcomesRelated SameLastRun (Sys2Proof.core.run (fuel + 1) { s with launches := [r] })
      (Sys2Proof.core.run (fuel + 1) { s' with launches := [r] })) :
    execute fuel s r = execute fuel s' r := by
  rw [execute, execute]
  rcases h.cases with ⟨t, t', ho, ho', ⟨hpacket, -⟩⟩ | ⟨f, ho, ho'⟩ | ⟨_, ho, ho'⟩
  · rw [ho, ho']
    exact hpacket.callerSees.symm
  · rw [ho, ho']
  · rw [ho, ho']

/-- Settles O53: the launch is all that the two runs begin with. -/
theorem runsShareNothing : Obligations.RunsShareNothing :=
  fun fuel _ _ _ hpresented hrun hrun' =>
    execute_eq_of_related (run_last_launch fuel hpresented hrun hrun' rfl rfl)

end Sys2Proof.Machine

/-!
The R entries of the access table (10_state.md R35): two states that agree in the columns an
instruction reads give it the same values to write. Each named operation, given the same values in
both states, writes the same; so that an instruction is settled by the columns of its operands.
-/

namespace Sys2Proof.Machine

open Sys2Proof.Machine.Rules

/-- The two next states have the same `pc` and outcome, and what was written is the same in both. -/
def SameEffect (s s' t t' : State) : Prop :=
  t.pc = t'.pc ∧ t.status = t'.status ∧ t.outcome = t'.outcome ∧
    (t.a = t'.a ∨ t.a = s.a ∧ t'.a = s'.a) ∧ (t.x = t'.x ∨ t.x = s.x ∧ t'.x = s'.x) ∧
    ∀ j, t.slot j = t'.slot j ∨ t.slot j = s.slot j ∧ t'.slot j = s'.slot j

/-- What the statement presupposes of the two states, besides the columns. -/
structure SameControl (s s' : State) : Prop where
  pc : s.pc = s'.pc
  status : s.status = s'.status
  outcome : s.outcome = s'.outcome

variable {s s' : State} {i : Instr}

/-! ## The named operations -/

theorem sameEffect_intoA (h : SameControl s s') {v v' : Word} (hv : v = v') :
    SameEffect s s' (s.intoA v) (s'.intoA v') :=
  ⟨congrArg (· + 1) h.pc, h.status, h.outcome, .inl hv, .inr ⟨rfl, rfl⟩, fun _ => .inr ⟨rfl, rfl⟩⟩

theorem sameEffect_intoX (h : SameControl s s') {v v' : Word} (hv : v = v') :
    SameEffect s s' (s.intoX v) (s'.intoX v') :=
  ⟨congrArg (· + 1) h.pc, h.status, h.outcome, .inr ⟨rfl, rfl⟩, .inl hv, fun _ => .inr ⟨rfl, rfl⟩⟩

theorem sameEffect_setPc (h : SameControl s s') {target target' : Word} (ht : target = target') :
    SameEffect s s' (s.setPc target) (s'.setPc target') :=
  ⟨ht, h.status, h.outcome, .inr ⟨rfl, rfl⟩, .inr ⟨rfl, rfl⟩, fun _ => .inr ⟨rfl, rfl⟩⟩

theorem sameEffect_endRun (h : SameControl s s') (status : Status) {outcome outcome' : RunOutcome}
    (ho : outcome = outcome') :
    SameEffect s s' (s.endRun status outcome) (s'.endRun status outcome') :=
  ⟨h.pc, rfl, ho, .inr ⟨rfl, rfl⟩, .inr ⟨rfl, rfl⟩, fun _ => .inr ⟨rfl, rfl⟩⟩

theorem sameEffect_store (h : SameControl s s') (slot : Fin Config.memWords) {v v' : Word}
    (hv : v = v') :
    SameEffect s s' (s.setSlot slot v).advance (s'.setSlot slot v').advance := by
  refine ⟨congrArg (· + 1) h.pc, h.status, h.outcome, .inr ⟨rfl, rfl⟩, .inr ⟨rfl, rfl⟩, fun j => ?_⟩
  by_cases hj : j = slot
  · subst hj
    exact .inl ((State.setSlot_slot_same s j v).trans
      (hv.trans (State.setSlot_slot_same s' j v').symm))
  · exact .inr ⟨State.setSlot_slot_other s v hj, State.setSlot_slot_other s' v' hj⟩

/-- The two answers are next states, with the same effect. -/
def SameAnswer (s s' : State) (o o' : Result) : Prop :=
  ∃ t t', o = .next t ∧ o' = .next t' ∧ SameEffect s s' t t'

theorem sameAnswer_branch (h : SameControl s s') {cond cond' : Bool} (jt jf : Count)
    (hcond : cond = cond') : SameAnswer s s' (s.branch cond jt jf) (s'.branch cond' jt jf) :=
  ⟨_, _, State.branch_eq _ _ _, State.branch_eq _ _ _,
    sameEffect_setPc h (by rw [hcond, h.pc])⟩

theorem sameAnswer_divideA (h : SameControl s s') {d d' : Word} (ha : s.a = s'.a) (hd : d = d') :
    SameAnswer s s' (s.divideA d) (s'.divideA d') := by
  subst hd
  by_cases hzero : d = 0
  · exact ⟨_, _, Alu.divideA_of_eq_zero hzero, Alu.divideA_of_eq_zero hzero,
      sameEffect_endRun h _ rfl⟩
  · exact ⟨_, _, Alu.divideA_of_ne_zero hzero, Alu.divideA_of_ne_zero hzero,
      sameEffect_intoA h (by rw [ha])⟩

theorem sameAnswer_withSlot (h : SameControl s s') {code : Code} {k : Imm}
    {use use' : Fin Config.memWords → State}
    (huse : ∀ slot, SameEffect s s' (use slot) (use' slot)) :
    SameAnswer s s' (s.withSlot code k use) (s'.withSlot code k use') := by
  rcases Nat.lt_or_ge k.toNat Config.memWords with hin | hout
  · exact ⟨_, _, State.withSlot_inside (i := ⟨k.toNat, hin⟩) use rfl,
      State.withSlot_inside (i := ⟨k.toNat, hin⟩) use' rfl, huse _⟩
  · exact ⟨_, _, State.withSlot_outside use hout, State.withSlot_outside use' hout,
      sameEffect_endRun h _ (by rw [h.pc])⟩

theorem memRead_congr (hpacket : AgreeIn s s' .packet) (off n : Nat) :
    s.memRead off n = s'.memRead off n := by
  obtain ⟨horder, hbytes⟩ := hpacket
  simp only [State.memRead, State.packetBytes, horder, hbytes]

theorem sameAnswer_packetLoad (h : SameControl s s') {size : Size} {off off' : Nat}
    {use use' : Word → State} (hpacket : AgreeIn s s' .packet) (hcap : AgreeIn s s' .capLen)
    (hoff : off = off') (huse : ∀ v, SameEffect s s' (use v) (use' v)) :
    SameAnswer s s' (s.packetLoad size off use) (s'.packetLoad size off' use') := by
  subst hoff
  have hcap : s.inputs.capLen = s'.inputs.capLen := hcap
  rcases Nat.lt_or_ge s.inputs.capLen.toNat (off + size.bytes) with hout | hin
  · exact ⟨_, _, State.packetLoad_outside use hout, State.packetLoad_outside use' (hcap ▸ hout),
      sameEffect_endRun h _ rfl⟩
  · refine ⟨_, _, State.packetLoad_inside use hin, State.packetLoad_inside use' (hcap ▸ hin), ?_⟩
    rw [memRead_congr hpacket]
    exact huse _

/-! ## The instructions -/

/-- Every operand of an instruction stands in a column the table lists for it. -/
theorem exec_sameAnswer (h : SameControl s s') (hagree : ∀ c ∈ readColumns i, AgreeIn s s' c) :
    SameAnswer s s' (exec i s) (exec i s') := by
  cases i <;> simp only [readColumns, AgreeIn, List.forall_mem_cons, List.not_mem_nil,
    false_imp_iff, implies_true, and_true] at hagree
  case ldWAbs | ldHAbs | ldBAbs =>
    obtain ⟨hpacket, hcap⟩ := hagree
    exact sameAnswer_packetLoad h hpacket hcap rfl fun _ => sameEffect_intoA h rfl
  case ldxBMsh =>
    obtain ⟨hpacket, hcap⟩ := hagree
    rw [Loads.exec_ldxBMsh, Loads.exec_ldxBMsh]
    exact sameAnswer_packetLoad h hpacket hcap rfl fun _ => sameEffect_intoX h rfl
  case ldWInd k | ldHInd k | ldBInd k =>
    obtain ⟨hx, hpacket, hcap⟩ := hagree
    exact sameAnswer_packetLoad h hpacket hcap (congrArg (indOffset · k) hx) fun _ =>
      sameEffect_intoA h rfl
  case ldWMem =>
    exact sameAnswer_withSlot h fun slot => sameEffect_intoA h (hagree slot).symm
  case ldxWMem =>
    exact sameAnswer_withSlot h fun slot => sameEffect_intoX h (hagree slot).symm
  case st | stx => exact sameAnswer_withSlot h fun slot => sameEffect_store h slot hagree
  case ldWImm => exact ⟨_, _, rfl, rfl, sameEffect_intoA h rfl⟩
  case ldxWImm => exact ⟨_, _, rfl, rfl, sameEffect_intoX h rfl⟩
  case ldxWLen | miscTax => exact ⟨_, _, rfl, rfl, sameEffect_intoX h (by rw [hagree])⟩
  case jmpJa => exact ⟨_, _, rfl, rfl, sameEffect_setPc h rfl⟩
  case retK => exact ⟨_, _, rfl, rfl, sameEffect_endRun h _ rfl⟩
  case retA => exact ⟨_, _, rfl, rfl, sameEffect_endRun h _ (by rw [hagree])⟩
  case aluDivK => exact sameAnswer_divideA h hagree rfl
  case aluDivX =>
    obtain ⟨ha, hx⟩ := hagree
    exact sameAnswer_divideA h ha hx
  case jmpJeqK | jmpJgtK | jmpJgeK | jmpJsetK => exact sameAnswer_branch h _ _ (by rw [hagree])
  case jmpJeqX | jmpJgtX | jmpJgeX | jmpJsetX =>
    obtain ⟨ha, hx⟩ := hagree
    exact sameAnswer_branch h _ _ (by rw [ha, hx])
  case aluAddX | aluSubX | aluMulX | aluOrX | aluAndX | aluLshX | aluRshX =>
    obtain ⟨ha, hx⟩ := hagree
    exact ⟨_, _, rfl, rfl, sameEffect_intoA h (by rw [ha, hx])⟩
  case ldWLen | miscTxa | aluNeg | aluAddK | aluSubK | aluMulK | aluOrK | aluAndK | aluLshK
      | aluRshK =>
    exact ⟨_, _, rfl, rfl, sameEffect_intoA h (by rw [hagree])⟩

/-- Settles O46. -/
theorem accessTableReads : Obligations.AccessTableReads := by
  intro i s s' t t' hexec hexec' hpc hrun hrun' houtcome hagree
  obtain ⟨u, u', hu, hu', heffect⟩ :=
    exec_sameAnswer ⟨hpc, hrun.trans hrun'.symm, houtcome⟩ hagree
  cases hu.symm.trans hexec
  cases hu'.symm.trans hexec'
  exact heffect

end Sys2Proof.Machine

/-!
Several engines (20_memory.md R71, 60_exceptions.md R237): a step of one of them is a step of it
alone, and a schedule is read off engine by engine.
-/

namespace Sys2Proof.Machine

variable {n : Nat} {es es' : Engines} {s : State}

/-- Everything a step of a system can answer as a next one. -/
theorem stepEngine_next (h : stepEngine n es = .next es') :
    (es[n]? = none ∧ es' = es) ∨
      ∃ s t, es[n]? = some s ∧ step s = .next t ∧ es' = es.set n t := by
  unfold stepEngine at h
  split at h
  case h_1 habsent =>
    cases h
    exact .inl ⟨habsent, rfl⟩
  case h_2 s hget =>
    split at h
    case h_1 t hstep =>
      cases h
      exact .inr ⟨s, t, hget, hstep, rfl⟩
    all_goals cases h

theorem stepEngine_length (h : stepEngine n es = .next es') : es'.length = es.length := by
  rcases stepEngine_next h with ⟨-, rfl⟩ | ⟨_, t, -, -, rfl⟩
  · rfl
  · exact List.length_set

theorem stepEngine_same (h : stepEngine n es = .next es') (hget : es[n]? = some s) :
    ∃ t, step s = .next t ∧ es'[n]? = some t := by
  rcases stepEngine_next h with ⟨habsent, -⟩ | ⟨u, t, hget', hstep, rfl⟩
  · rw [habsent] at hget
    cases hget
  · cases hget.symm.trans hget'
    obtain ⟨hn, -⟩ := List.getElem?_eq_some_iff.mp hget
    exact ⟨t, hstep, List.getElem?_set_self hn⟩

theorem stepEngine_other {m : Nat} (h : stepEngine n es = .next es') (hne : n ≠ m) :
    es'[m]? = es[m]? := by
  rcases stepEngine_next h with ⟨-, rfl⟩ | ⟨_, t, -, -, rfl⟩
  · rfl
  · exact List.getElem?_set_ne hne

theorem runSchedule_cons {rest : List Nat} (h : runSchedule (n :: rest) es = .next es') :
    ∃ mid, stepEngine n es = .next mid ∧ runSchedule rest mid = .next es' := by
  unfold runSchedule at h
  split at h
  case h_1 mid hstep => exact ⟨mid, hstep, h⟩
  all_goals cases h

/-- Settles O54, by induction over the schedule: its first step is a step of engine `m` or leaves
that engine alone. -/
theorem enginesRunIndependently : Obligations.EnginesRunIndependently := by
  intro schedule
  induction schedule with
  | nil =>
    intro es es' h
    cases h
    exact ⟨rfl, fun m s hget => ⟨s, hget, run_zero s⟩⟩
  | cons n rest ih =>
    intro es es' h
    obtain ⟨mid, hstep, hrest⟩ := runSchedule_cons h
    obtain ⟨hlength, hengines⟩ := ih mid es' hrest
    refine ⟨hlength.trans (stepEngine_length hstep), fun m s hget => ?_⟩
    by_cases hm : n = m
    · subst hm
      obtain ⟨t, hs, hmid⟩ := stepEngine_same hstep hget
      rw [List.count_cons_self, run_succ_next hs]
      exact hengines n t hmid
    · rw [List.count_cons_of_ne hm]
      exact hengines m s ((stepEngine_other hstep hm).trans hget)

end Sys2Proof.Machine
